-- ==== Sys2Proof/Word.lean ====
section
/-! DEFINITION. The two word types of the machine: a byte (R13) and a 64-bit register (R18, R21, R27). -/

namespace Sys2Proof

/-- A byte is 8 bits with a value 0 to 255 (R13). -/
abbrev Byte := BitVec 8

/-- A register: 64 bits. It holds a field element, an integer in `[0, P)` (R18, R21), or the cursor, a 64-bit
unsigned integer (R18, R27). -/
abbrev Word := BitVec 64

end Sys2Proof
end

