-- ==== Sys2Proof/Syntax.lean ====
section
/-! DEFINITION. The ten commands (R60, R64), one constructor per row of spec/opcode_table.json. -/

namespace Sys2Proof

/-- A command with its payload, the `LEN` bytes after the nine header bytes (R61). Every command carries its payload,
also those of format Z whose only legal payload is empty: a frame with a defined opcode and an illegal `LEN` is a frame of
that command, which answers `IllegalCommand` (R65, R67). -/
inductive Instr where
  /-- `0x01` NEW, format Z (R120). -/
  | new (payload : List Byte)
  /-- `0x02` ABSORB, format B (R123). -/
  | absorb (payload : List Byte)
  /-- `0x03` ABSORBF, format E (R124). -/
  | absorbf (payload : List Byte)
  /-- `0x04` FINALIZE, format Z (R125). -/
  | finalize (payload : List Byte)
  /-- `0x05` SAVE, format Z (R150). -/
  | save (payload : List Byte)
  /-- `0x06` RESTORE, format F (R151). -/
  | restore (payload : List Byte)
  /-- `0x10` HASH, format B (R140). -/
  | hash (payload : List Byte)
  /-- `0x11` HASHF, format E (R141). -/
  | hashf (payload : List Byte)
  /-- `0x12` MERGE, format F (R142). -/
  | merge (payload : List Byte)
  /-- `0x20` PERMUTE, format F (R111). -/
  | permute (payload : List Byte)
deriving DecidableEq, Repr

/-- The payload of a command (R61). -/
def Instr.payload : Instr → List Byte
  | .new b => b
  | .absorb b => b
  | .absorbf b => b
  | .finalize b => b
  | .save b => b
  | .restore b => b
  | .hash b => b
  | .hashf b => b
  | .merge b => b
  | .permute b => b

end Sys2Proof
end

