-- ==== Sys2Proof/Decode.lean ====
section
/-! DEFINITION. Byte order (R41, R90), the command decoder (R61, R64, R65, R67) and the encoder of the same frames. -/

namespace Sys2Proof

/-- The value of a byte string, the byte at the lower offset having the lower weight (R41). -/
def leNat : List Byte → Nat
  | [] => 0
  | b :: bs => b.toNat + 256 * leNat bs

/-- The `k` little-endian bytes of `n`; higher bits are dropped. -/
def leBytes : Nat → Nat → List Byte
  | 0, _ => []
  | k + 1, n => BitVec.ofNat 8 (n % 256) :: leBytes k (n / 256)

/-- `le64(b)` (R90): the integer an 8-byte string spells. -/
def le64 (b : List Byte) : Nat := leNat b

/-- `to_le64(n)` (R90): the 8-byte string of an integer below `2^64`. -/
def toLe64 (n : Nat) : List Byte := leBytes 8 n

/-- What the decoder finds at the head of the received bytes. -/
inductive Decoded where
  /-- One of the ten commands (R64), and the bytes after its frame. -/
  | instr (i : Instr) (rest : List Byte)
  /-- A whole frame with a reserved opcode (R67), and the bytes after it. -/
  | reserved (op : Byte) (rest : List Byte)
  /-- Fewer than `9 + LEN` bytes: not a frame yet (R65). -/
  | incomplete
deriving DecidableEq, Repr

/-- The opcode map (R64): byte 0 whole selects the command; every other value is reserved (R67). -/
def instrOf (op : Byte) (payload : List Byte) : Option Instr :=
  match op with
  | 0x01#8 => some (.new payload)
  | 0x02#8 => some (.absorb payload)
  | 0x03#8 => some (.absorbf payload)
  | 0x04#8 => some (.finalize payload)
  | 0x05#8 => some (.save payload)
  | 0x06#8 => some (.restore payload)
  | 0x10#8 => some (.hash payload)
  | 0x11#8 => some (.hashf payload)
  | 0x12#8 => some (.merge payload)
  | 0x20#8 => some (.permute payload)
  | _ => none

/-- The decoder (R61, R65, R67), total on any bytes: the opcode, `LEN = le64(frame[1..8])`, `LEN` payload bytes. A frame
is read the same way for every opcode (R68). -/
def decode (bytes : List Byte) : Decoded :=
  match bytes with
  | [] => .incomplete
  | op :: t =>
    if t.length < 8 then .incomplete
    else if (t.drop 8).length < le64 (t.take 8) then .incomplete
    else
      match instrOf op ((t.drop 8).take (le64 (t.take 8))) with
      | some i => .instr i ((t.drop 8).drop (le64 (t.take 8)))
      | none => .reserved op ((t.drop 8).drop (le64 (t.take 8)))

/-- The opcode of a command (R64). -/
def opcodeOf : Instr → Byte
  | .new _ => 0x01
  | .absorb _ => 0x02
  | .absorbf _ => 0x03
  | .finalize _ => 0x04
  | .save _ => 0x05
  | .restore _ => 0x06
  | .hash _ => 0x10
  | .hashf _ => 0x11
  | .merge _ => 0x12
  | .permute _ => 0x20

/-- A command frame `OP ++ LEN8 ++ PAYLOAD` (R61). -/
def commandFrame (op : Byte) (payload : List Byte) : List Byte :=
  op :: (toLe64 payload.length ++ payload)

/-- The encoder: the frame of a command (R61, R64). -/
def encode (i : Instr) : List Byte := commandFrame (opcodeOf i) i.payload

/-- The frame an opcode-table word stands for: bit 0 of `w` is the least significant bit of byte 0 and byte `k` is bits
`8k+7 .. 8k`; the bits from `nbits` up are 0; the frame is `9 + LEN` bytes long. -/
def frameOfTableWord (nbits w : Nat) : List Byte :=
  leBytes (9 + w % 2 ^ nbits / 256 % 2 ^ 64) (w % 2 ^ nbits)

/-- The command the decoder reads from an opcode-table word; none where it refuses. -/
def decodeTableWord (nbits w : Nat) : Option Instr :=
  match decode (frameOfTableWord nbits w) with
  | .instr i _ => some i
  | .reserved _ _ => none
  | .incomplete => none

end Sys2Proof
end

