-- ==== Sys2Proof/Config.lean ====
section
/-! DEFINITION. The configuration record `Cfg` (R9, R10), its well-formedness W1 to W7 (R11), and the open parameter:
the one variant an instance implements, a constant of which nothing is known but that it is well formed. -/

namespace Sys2Proof

/-- `Y_PRE` (R10, R107): whether the variant's diffusion copies `y[last]` from `y[0]` first. -/
inductive YPre where
  | none
  | copyLastFromFirst
deriving DecidableEq, Repr

/-- A configuration table: a list of rows, indexed `[row][column]` from 0 (R32). -/
abbrev Table := List (List Word)

/-- `FAMILY` with the parameters only that family has (R10): the two round-constant tables of `rescue`, or `BETA`,
`DELTA`, the tables `C` and `D` and `Y_PRE` of `flystel`. -/
inductive Family where
  | rescue (rc1 rc2 : Table)
  | flystel (beta delta : Word) (c d : Table) (yPre : YPre)
deriving DecidableEq, Repr

/-- The configuration record (R10). All its fields are build-time constants; no command reads them out or writes
them. `CAP` and `NC` are computed (`Cfg.cap`, `Cfg.nc`). -/
structure Cfg where
  /-- `FAMILY` and that family's own constants. -/
  family : Family
  /-- `SW`, STATE_WIDTH. -/
  sw : Nat
  /-- `RW`, RATE_WIDTH. -/
  rw : Nat
  /-- `DS`, DIGEST_SIZE. -/
  ds : Nat
  /-- `NR`, ROUND_COUNT. -/
  nr : Nat
  /-- `P`, the field modulus. -/
  p : Nat
  /-- `ALPHA`, the forward S-box exponent. -/
  alpha : Nat
  /-- `ALPHA_INV`, the inverse S-box exponent (R87). -/
  alphaInv : Nat
  /-- `MDS`, row index first (R101). -/
  mds : Table
deriving DecidableEq, Repr

/-- `CAP = SW - RW` (R10). -/
def Cfg.cap (c : Cfg) : Nat := c.sw - c.rw

/-- `NC = SW / 2` (R10; 90_conflicts.md C1). -/
def Cfg.nc (c : Cfg) : Nat := c.sw / 2

/-- The side of the matrix: `SW` for `rescue`, `NC` for `flystel` (R10). -/
def Cfg.mdsSide (c : Cfg) : Nat :=
  match c.family with
  | .rescue _ _ => c.sw
  | .flystel _ _ _ _ _ => c.nc

/-- Every word of a list is an integer in `[0, p)`: canonical field elements (R19, R21). -/
def canonicalAll (p : Nat) (xs : List Word) : Bool := xs.all fun v => decide (v.toNat < p)

/-- A table of `rows` rows of `cols` entries, every entry an integer in `[0, p)` (R11 W6, W7). -/
def Table.fits (p rows cols : Nat) (t : Table) : Bool :=
  t.length == rows && t.all fun row => row.length == cols && canonicalAll p row

/-- W4, W6 and W7 for what belongs to one family (R11). -/
def Cfg.familyFits (c : Cfg) : Bool :=
  match c.family with
  | .rescue rc1 rc2 => Table.fits c.p c.nr c.sw rc1 && Table.fits c.p c.nr c.sw rc2
  | .flystel beta delta cs ds _ =>
    c.sw % 2 == 0 && canonicalAll c.p [beta, delta] && Table.fits c.p c.nr c.nc cs && Table.fits c.p c.nr c.nc ds

/-- A configuration is well formed (R11, W1 to W7). -/
structure Cfg.WellFormed (c : Cfg) : Prop where
  /-- W1: `P` is prime. -/
  prime : c.p.Prime
  /-- W1: `2^57 <= P`. -/
  p_ge : 2 ^ 57 ≤ c.p
  /-- W1: `P < 2^64`. -/
  p_lt : c.p < 2 ^ 64
  /-- W2: `1 <= RW`. -/
  rw_pos : 1 ≤ c.rw
  /-- W2: `RW < SW`. -/
  rw_lt : c.rw < c.sw
  /-- W3: `1 <= DS`. -/
  ds_pos : 1 ≤ c.ds
  /-- W3: `DS <= RW`. -/
  ds_le : c.ds ≤ c.rw
  /-- W3: `2 * DS <= SW`. -/
  two_ds_le : 2 * c.ds ≤ c.sw
  /-- W5: `ALPHA >= 1`. -/
  alpha_pos : 1 ≤ c.alpha
  /-- W5: `gcd(ALPHA, P - 1) = 1`. -/
  alpha_coprime : Nat.Coprime c.alpha (c.p - 1)
  /-- W5: `0 < ALPHA_INV`. -/
  alphaInv_pos : 0 < c.alphaInv
  /-- W5: `ALPHA_INV < P - 1`. -/
  alphaInv_lt : c.alphaInv < c.p - 1
  /-- W5: `ALPHA * ALPHA_INV mod (P - 1) = 1`. -/
  alpha_mul : c.alpha * c.alphaInv % (c.p - 1) = 1
  /-- W6, W7 for the matrix. -/
  mds_fits : Table.fits c.p c.mdsSide c.mdsSide c.mds = true
  /-- W4, W6, W7 for the family's own constants. -/
  family_fits : c.familyFits = true

/-- A variant: a configuration together with its well-formedness, so that an ill-formed one cannot be instantiated
(R11: "a model refuses any other"; D29). `fits` is DEDUCED (log entry 2): the `RLEN` of a SAVE response,
`SW * 8 + 8`, is a 64-bit field (R63, R66). -/
structure Variant where
  cfg : Cfg
  wf : cfg.WellFormed
  fits : cfg.sw * 8 + 8 < 2 ^ 64
deriving DecidableEq, Repr

/-! ## A well-formed configuration exists

The toy configuration TOY-R of 95_test_vectors.md section 2. It is evidence that R11 can be met, and the tests run on
it; it is NOT the configuration of the machine, which stays open. -/

/-- Modular exponentiation over `k` exponent bits, for the primality proof below. -/
def powMod (m a : Nat) : Nat → Nat → Nat
  | 0, _ => 1 % m
  | k + 1, e =>
    if e % 2 = 1 then powMod m a k (e / 2) * powMod m a k (e / 2) % m * a % m
    else powMod m a k (e / 2) * powMod m a k (e / 2) % m

theorem powMod_eq (m a : Nat) : ∀ k e, e < 2 ^ k → powMod m a k e = a ^ e % m
  | 0, e, h => by
    have he : e = 0 := by simpa using h
    subst he; simp [powMod]
  | k + 1, e, h => by
    have ih := powMod_eq m a k (e / 2) (by omega)
    have he : a ^ e = a ^ (e / 2) * a ^ (e / 2) * a ^ (e % 2) := by
      rw [← pow_add, ← pow_add]; congr 1; omega
    unfold powMod
    rw [ih, he]
    rcases Nat.mod_two_eq_zero_or_one e with h0 | h0
    · simp [h0, Nat.mul_mod]
    · simp [h0, Nat.mul_mod]

/-- The test modulus of the toy configurations, `2^64 - 2^32 + 1` (93 G1: a test value, not the hardware's `P`). -/
abbrev toyP : Nat := 18446744069414584321

/-- Lucas' test with base 7: `P - 1 = 2^32 * 3 * 5 * 17 * 257 * 65537`. -/
theorem toyP_prime : Nat.Prime toyP := by
  have pw : ∀ e, e < 2 ^ 64 → (7 : ZMod toyP) ^ e = (powMod toyP 7 64 e : ℕ) := by
    intro e h
    rw [powMod_eq toyP 7 64 e h, ZMod.natCast_mod]; push_cast; rfl
  have ne : ∀ e, e < 2 ^ 64 → powMod toyP 7 64 e < toyP → powMod toyP 7 64 e ≠ 1 →
      (7 : ZMod toyP) ^ e ≠ 1 := by
    intro e h hr h1 hc
    rw [pw e h, ← Nat.cast_one, ZMod.natCast_eq_natCast_iff, Nat.ModEq, Nat.mod_eq_of_lt hr] at hc
    exact h1 (by simpa using hc)
  refine lucas_primality _ (7 : ZMod toyP) ?_ ?_
  · rw [pw _ (by norm_num), show powMod toyP 7 64 (toyP - 1) = 1 by decide +kernel, Nat.cast_one]
  · intro q hq hd
    have hf : toyP - 1 = 2 ^ 32 * (3 * (5 * (17 * (257 * 65537)))) := by norm_num
    rw [hf] at hd
    simp only [hq.dvd_mul] at hd
    have eq_of_dvd : ∀ n : Nat, n.Prime → q ∣ n → q = n := fun n hn h =>
      (Nat.prime_dvd_prime_iff_eq hq hn).1 h
    rcases hd with h | h | h | h | h | h
    · obtain rfl := eq_of_dvd 2 (by norm_num) (hq.dvd_of_dvd_pow h)
      exact ne _ (by norm_num) (by decide +kernel) (by decide +kernel)
    · obtain rfl := eq_of_dvd 3 (by norm_num) h
      exact ne _ (by norm_num) (by decide +kernel) (by decide +kernel)
    · obtain rfl := eq_of_dvd 5 (by norm_num) h
      exact ne _ (by norm_num) (by decide +kernel) (by decide +kernel)
    · obtain rfl := eq_of_dvd 17 (by norm_num) h
      exact ne _ (by norm_num) (by decide +kernel) (by decide +kernel)
    · obtain rfl := eq_of_dvd 257 (by norm_num) h
      exact ne _ (by norm_num) (by decide +kernel) (by decide +kernel)
    · obtain rfl := eq_of_dvd 65537 (by norm_num) h
      exact ne _ (by norm_num) (by decide +kernel) (by decide +kernel)

/-- TOY-R (95_test_vectors.md section 2). -/
def toyRCfg : Cfg where
  family := .rescue [[100, 101, 102, 103], [200, 201, 202, 203]] [[1000, 1001, 1002, 1003], [2000, 2001, 2002, 2003]]
  sw := 4
  rw := 3
  ds := 1
  nr := 2
  p := toyP
  alpha := 7
  alphaInv := 10540996611094048183
  mds := [[1, 2, 3, 4], [5, 6, 7, 8], [9, 10, 11, 13], [14, 15, 17, 19]]

/-- TOY-R is well formed: the hypotheses of R11 can be met. -/
def toyR : Variant where
  cfg := toyRCfg
  wf :=
    { prime := toyP_prime
      p_ge := by decide +kernel
      p_lt := by decide +kernel
      rw_pos := by decide +kernel
      rw_lt := by decide +kernel
      ds_pos := by decide +kernel
      ds_le := by decide +kernel
      two_ds_le := by decide +kernel
      alpha_pos := by decide +kernel
      alpha_coprime := by decide +kernel
      alphaInv_pos := by decide +kernel
      alphaInv_lt := by decide +kernel
      alpha_mul := by decide +kernel
      mds_fits := by decide +kernel
      family_fits := by decide +kernel }
  fits := by decide +kernel

/-! ## The open parameter -/

/-- OPEN (92_eei_decisions.md section 2; R6, R9, R10): the variant this instance implements. It has no body, so nothing
can be proved of it but what R11 gives every variant; the argument only says that well-formed variants exist.
Log entry 1. -/
opaque Config.anyVariant (exists_variant : Inhabited Variant) : Variant

/-- The variant of the machine at `State.reset`. -/
def Config.variant : Variant := Config.anyVariant ⟨toyR⟩

/-- FREE VALUE (93 U7; R30): what `T[i]` holds after the `n`-th one-shot command. Nothing is known of it. Log entry 5. -/
opaque Config.scratchRegister (n i : Nat) : Word

/-- FREE VALUE (93 U7; R30): what `j` holds after the `n`-th one-shot command. Nothing is known of it. Log entry 5. -/
opaque Config.scratchCursor (n : Nat) : Word

end Sys2Proof
end

