-- ==== Sys2Proof/Machine/Field.lean ====
section
/-! DEFINITION. Exact arithmetic modulo `P` on field elements (R80 to R88). Operands are read as integers, the result is
computed exactly and reduced, and only then narrowed to a register. -/

namespace Sys2Proof.Machine

/-- The register that holds the integer `n mod P` (R80). -/
def fofNat (c : Cfg) (n : Nat) : Word := BitVec.ofNat 64 (n % c.p)

/-- `zero`, the element 0 (R80). -/
def fzero : Word := 0

/-- `one`, the document's field-one (R80). -/
def fone : Word := 1

/-- `fadd(a, b) = (a + b) mod P` (R81). -/
def fadd (c : Cfg) (a b : Word) : Word := fofNat c (a.toNat + b.toNat)

/-- `fsub(a, b) = (a - b) mod P`, the non-negative remainder (R82). -/
def fsub (c : Cfg) (a b : Word) : Word :=
  BitVec.ofNat 64 (((a.toNat : Int) - (b.toNat : Int)) % (c.p : Int)).toNat

/-- `fmul(a, b) = (a * b) mod P` (R83). -/
def fmul (c : Cfg) (a b : Word) : Word := fofNat c (a.toNat * b.toNat)

/-- `fsq(a) = fmul(a, a)` (R84). -/
def fsq (c : Cfg) (a : Word) : Word := fmul c a a

/-- `fscale(a, k) = (a * k) mod P` for a small natural number `k` (R85). No command calls it. -/
def fscale (c : Cfg) (a : Word) (k : Nat) : Word := fofNat c (a.toNat * k)

/-- Square-and-multiply over the low `k` bits of `e` (R86; 93 G6): the power by the upper bits is squared, then multiplied by
`a` when the low bit is 1. -/
def fpowBits (c : Cfg) (a : Word) : Nat → Nat → Word
  | 0, _ => fone
  | k + 1, e =>
    if e % 2 = 1 then fmul c (fsq c (fpowBits c a k (e / 2))) a
    else fsq c (fpowBits c a k (e / 2))

/-- `fpow(a, e)`: `a` multiplied by itself `e` times modulo `P`, `fpow(a, 0) = 1` (R86). Any method that returns this value
is allowed; `fpow_zero` and `fpow_succ` (Laws/Field.lean) are the rule's own equations. -/
def fpow (c : Cfg) (a : Word) (e : Nat) : Word := fpowBits c a (e.log2 + 1) e

/-- The forward S-box, `sbox(a) = fpow(a, ALPHA)` (R87). -/
def sbox (c : Cfg) (a : Word) : Word := fpow c a c.alpha

/-- The inverse S-box, `finv_sbox(a) = fpow(a, ALPHA_INV)` (R87, R88). -/
def finvSbox (c : Cfg) (a : Word) : Word := fpow c a c.alphaInv

end Sys2Proof.Machine
end

