-- ==== Sys2Proof/Machine/Codec.lean ====
section
/-! DEFINITION. The field element encoder and decoder (R89, R91) and the byte chunk's element (R92). -/

namespace Sys2Proof.Machine

/-- `enc8(a)`: the 8 little-endian bytes of the canonical integer (R89). -/
def enc8 (a : Word) : List Byte := leBytes 8 a.toNat

/-- `dec8(b)`: the element an 8-byte string spells, or failure when the integer is not below `P`; never a reduction
(R91). -/
def dec8 (c : Cfg) (b : List Byte) : Option Word :=
  if le64 b < c.p then some (BitVec.ofNat 64 (le64 b)) else none

/-- The 8-byte buffer of a chunk (R92): its bytes, then the marker byte 1 when it is the last chunk, zeros above. -/
def chunkBuf (chunk : List Byte) (last : Bool) : List Byte :=
  let data := if last then chunk ++ [1] else chunk
  data ++ List.replicate (8 - data.length) 0

/-- `chunk_to_field(c, last) = dec8(buf)` (R92). The decoding cannot fail for a chunk of 1 to 7 bytes
(`dec8_chunkBuf`, Laws/Codec.lean), so the 0 that stands for a failure is never the answer (log entry 11). -/
def chunkToField (c : Cfg) (chunk : List Byte) (last : Bool) : Word :=
  (dec8 c (chunkBuf chunk last)).getD 0

/-- Consecutive `enc8` encodings, element 0 first (R46, R47, R154). -/
def encElems (xs : List Word) : List Byte := xs.flatMap enc8

end Sys2Proof.Machine
end

