-- ==== Sys2Proof/Machine/Operands.lean ====
section
/-! DEFINITION. Operand assembly: how each format reads its payload (R15, R42, R43, R62, R65, R122). -/

namespace Sys2Proof.Machine

/-- `MemRead(off, n)`: the `n` payload bytes at offsets `off` to `off + n - 1` (R15). -/
def memRead (payload : List Byte) (off n : Nat) : List Byte := (payload.drop off).take n

/-- The first `n` 8-byte groups of a payload: group `k` is the bytes at offsets `8k` to `8k + 7` (R43, R47). -/
def elemGroups (payload : List Byte) (n : Nat) : List (List Byte) :=
  (List.range n).map fun k => memRead payload (8 * k) 8

/-- Every group decoded, or none if any of them is not canonical (R65, R91). -/
def decodeAll (c : Cfg) : List (List Byte) → Option (List Word)
  | [] => some []
  | g :: gs =>
    match dec8 c g, decodeAll c gs with
    | some v, some vs => some (v :: vs)
    | _, _ => none

/-- The `n` element operands of a payload (R65). -/
def elemOperands (c : Cfg) (payload : List Byte) (n : Nat) : Option (List Word) :=
  decodeAll c (elemGroups payload n)

/-- The cursor operand of RESTORE, `le64(MemRead(8 * SW, 8))`; not a field element (R65, R151). -/
def cursorOperand (c : Cfg) (payload : List Byte) : Nat := le64 (memRead payload (8 * c.sw) 8)

/-- The number of 7-byte chunks of `n` bytes, `ceil(n / 7)` (R94, R122). -/
def chunkCount (n : Nat) : Nat := (n + 6) / 7

/-- Chunk `k` of a byte input: the bytes at offsets `7k` to `min(7k + 6, n - 1)` (R43, R122). -/
def chunkAt (b : List Byte) (k : Nat) : List Byte :=
  memRead b (7 * k) (min (7 * k + 6) (b.length - 1) - 7 * k + 1)

/-- The field elements a byte input absorbs: `chunk_to_field(chunk k, k = nc - 1)` for `k = 0 .. nc - 1`; none for the empty
input (R122; D13). -/
def byteElems (c : Cfg) (b : List Byte) : List Word :=
  (List.range (chunkCount b.length)).map fun k => chunkToField c (chunkAt b k) (k + 1 == chunkCount b.length)

end Sys2Proof.Machine
end

