-- ==== Sys2Proof/Machine/Permutation.lean ====
section
/-! DEFINITION. The permutation (R100 to R110): S-box layer, MDS diffusion, constant injection, rounds, for both
families. Every step reads a complete old vector and writes a complete new one (R112). -/

namespace Sys2Proof.Machine

/-- One output lane of the matrix-vector product: `(row[0] * v[0] + ... + row[n-1] * v[n-1]) mod P` (R101). -/
def dotRow (c : Cfg) (row v : List Word) : Word :=
  fofNat c (List.zipWith (fun m x => m.toNat * x.toNat) row v).sum

/-- `mds_mul(M, v)`: row index first, all outputs from the old `v` (R101). -/
def mdsMul (c : Cfg) (m : Table) (v : List Word) : List Word := m.map fun row => dotRow c row v

/-- Constant injection: one table row added entrywise (R103 steps 3 and 6, R106). -/
def addConsts (c : Cfg) (xs ks : List Word) : List Word := List.zipWith (fadd c) xs ks

/-- Row `r` of a round-constant table (R32). -/
def roundRow (t : Table) (r : Nat) : List Word := t.getD r []

/-- `rescue_round(X, r)`: six steps in order (R103). -/
def rescueRound (c : Cfg) (rc1 rc2 : Table) (x : List Word) (r : Nat) : List Word :=
  let x1 := x.map (sbox c)
  let x2 := mdsMul c c.mds x1
  let x3 := addConsts c x2 (roundRow rc1 r)
  let x4 := x3.map (finvSbox c)
  let x5 := mdsMul c c.mds x4
  addConsts c x5 (roundRow rc2 r)

/-- `permute` of the rescue family: `NR` rounds in order and nothing else (R104). -/
def permuteRescue (c : Cfg) (rc1 rc2 : Table) (x : List Word) : List Word :=
  (List.range c.nr).foldl (rescueRound c rc1 rc2) x

/-- `Y_PRE` applied to the `y` half: `y[NC - 1] <- y[0]` or nothing (R107). -/
def yPreStep (c : Cfg) (yPre : YPre) (y : List Word) : List Word :=
  match yPre with
  | .none => y
  | .copyLastFromFirst => y.set (c.nc - 1) (y.getD 0 0)

/-- `diffuse(x, y)`: the `Y_PRE` step on `y` only, then the same matrix on both halves (R107). -/
def diffuse (c : Cfg) (yPre : YPre) (xy : List Word × List Word) : List Word × List Word :=
  (mdsMul c c.mds xy.1, mdsMul c c.mds (yPreStep c yPre xy.2))

/-- One column of the flystel layer, sub-steps (a) to (d) in order (R108). -/
def flystelColumn (c : Cfg) (beta delta x y : Word) : Word × Word :=
  let xa := fsub c x (fmul c beta (fsq c y))
  let z := finvSbox c xa
  let yc := fsub c y z
  (fadd c (fadd c xa (fmul c beta (fsq c yc))) delta, yc)

/-- `flystel_sbox(x, y)`, column by column (R108). -/
def flystelSbox (c : Cfg) (beta delta : Word) (xy : List Word × List Word) : List Word × List Word :=
  let cols := List.zipWith (flystelColumn c beta delta) xy.1 xy.2
  (cols.map Prod.fst, cols.map Prod.snd)

/-- The two halves of an array, `x[i] = X[i]` and `y[i] = X[NC + i]` (R23, R105). -/
def halves (c : Cfg) (x : List Word) : List Word × List Word := (x.take c.nc, x.drop c.nc)

/-- The halves put together again in the same places (R105, R109). -/
def joinHalves (xy : List Word × List Word) : List Word := xy.1 ++ xy.2

/-- `flystel_round(X, r)`: constants, diffusion, nonlinear layer, reassembly (R106 to R109). -/
def flystelRound (c : Cfg) (beta delta : Word) (cs ds : Table) (yPre : YPre) (x : List Word) (r : Nat) : List Word :=
  let h := halves c x
  let h1 := (addConsts c h.1 (roundRow cs r), addConsts c h.2 (roundRow ds r))
  joinHalves (flystelSbox c beta delta (diffuse c yPre h1))

/-- `permute` of the flystel family: `NR` rounds in order, then one `diffuse`, `Y_PRE` included (R110). -/
def permuteFlystel (c : Cfg) (beta delta : Word) (cs ds : Table) (yPre : YPre) (x : List Word) : List Word :=
  joinHalves (diffuse c yPre (halves c ((List.range c.nr).foldl (flystelRound c beta delta cs ds yPre) x)))

/-- `permute(X)`: a function of `X` and `Cfg` alone (R100). -/
def permute (c : Cfg) (x : List Word) : List Word :=
  match c.family with
  | .rescue rc1 rc2 => permuteRescue c rc1 rc2 x
  | .flystel beta delta cs ds yPre => permuteFlystel c beta delta cs ds yPre x

end Sys2Proof.Machine
end

