-- ==== Sys2Proof/Machine/State.lean ====
section
/-! DEFINITION. The state of the machine (R29, R31), why it can stop, and the state after reset (R31, R180). -/

namespace Sys2Proof.Machine

/-- The machine's state. It is plain data. -/
structure State where
  /-- `Cfg`, the configuration of the one variant this instance implements; constant, written by nothing (R9, R31,
  R32). -/
  variant : Variant
  /-- `S[0 .. SW-1]`, the hasher's state array (R21, R22). -/
  S : List Word
  /-- `IDX`, the absorption cursor, the only control and status register (R27). -/
  IDX : Word
  /-- `T[0 .. SW-1]`, the scratch state of HASH, HASHF, MERGE and PERMUTE (R30). Each of them sets it first, so no command
  reads what an earlier one left in it; between commands its value is free (93 U7, log entry 5). -/
  T : List Word
  /-- `j`, the scratch cursor (R30), as `T`. -/
  j : Word
  /-- How many times the scratch state has been used: the model's own counter, which picks the next free values of `T` and `j`
  (log entry 5). -/
  scratchUses : Nat
  /-- The bytes received from the host and not yet consumed, in arrival order (R65, R180, R183). -/
  rx : List Byte
  /-- The response bytes sent and not yet read by the host, in order: the model's own field for the response side of
  R63 (log entry 6). -/
  tx : List Byte
deriving DecidableEq, Repr

/-- The configuration of the instance. -/
abbrev State.cfg (s : State) : Cfg := s.variant.cfg

/-- Why the machine can stop with a fault: never. Every error the spec names is a response frame after which the engine
goes on (R160, R164, R166), every command terminates and is answered (R190), and an incomplete frame makes it wait
(R65). So there is no constructor. Safe (log entry 9). -/
inductive Fault where
deriving DecidableEq, Repr

/-- Why an instruction has no outcome. -/
inductive Refusal where
  /-- Raised by an arm of `exec` for an instruction that has no meaning yet, with its mnemonic. Safe. No arm raises
  it. -/
  | notModelled (mnemonic : String)
deriving DecidableEq, Repr

/-- The reset state of an instance of the variant `v` (R31, R180): `S[i] = 0`, `IDX = 0`, the configuration untouched, idle, no
frame byte received, nothing sent. `T` and `j` are unspecified; 0 is a DESIGN CHOICE (log
entry 4), and so is the counter's 0 (log entry 5). -/
def State.resetOf (v : Variant) : State where
  variant := v
  S := List.replicate v.cfg.sw 0
  IDX := 0
  T := List.replicate v.cfg.sw 0
  j := 0
  scratchUses := 0
  rx := []
  tx := []

/-- The machine right after reset: R31 at the open configuration (log entry 1). -/
def State.reset : State := State.resetOf Config.variant

end Sys2Proof.Machine
end

