-- ==== Sys2Proof/Machine/Ops.lean ====
section
/-! DEFINITION. The operations the commands share: the sponge steps (R121, R125, R126), the named updates of the state, the
response (R63, R66), and the raising of an error (R17, R164, R166). -/

namespace Sys2Proof.Machine

/-- A state array with its cursor: (`S`, `IDX`), or (`T`, `j`) of a one-shot command (R121, R140). -/
structure Sponge where
  /-- The array `X`. -/
  X : List Word
  /-- Its cursor `k`. -/
  k : Word
deriving DecidableEq, Repr

/-! ## Sponge steps -/

/-- `absorb_elem(X, k, e)` (R121): added at `X[k]`, `k` advanced, and at `k = RW` the permutation runs and `k` is 0. -/
def absorbElem (c : Cfg) (sp : Sponge) (e : Word) : Sponge :=
  let x := sp.X.set sp.k.toNat (fadd c (sp.X.getD sp.k.toNat 0) e)
  if (sp.k + 1).toNat = c.rw then ⟨permute c x, 0⟩ else ⟨x, sp.k + 1⟩

/-- `absorb_elem` for each element in order (R123, R124). -/
def absorbAll (c : Cfg) (sp : Sponge) (es : List Word) : Sponge := es.foldl (absorbElem c) sp

/-- A pending block closed: `one` added at the cursor, nothing at the rate positions after it, one permutation
(R125, R141). -/
def padOne (c : Cfg) (sp : Sponge) : List Word :=
  permute c (sp.X.set sp.k.toNat (fadd c (sp.X.getD sp.k.toNat 0) fone))

/-- `squeeze(X)`: the first `DS` elements, each `enc8` (R126). -/
def squeeze (c : Cfg) (x : List Word) : List Byte := encElems (x.take c.ds)

/-- A fresh array: `SW` zeros (R120, R140). -/
def freshArray (c : Cfg) : List Word := List.replicate c.sw 0

/-! ## Named updates -/

/-- The hasher context (R29) as an array with its cursor. -/
def State.context (s : State) : Sponge := ⟨s.S, s.IDX⟩

/-- `S` and `IDX` written. -/
def State.setContext (s : State) (sp : Sponge) : State := { s with S := sp.X, IDX := sp.k }

/-- `T` and `j` at the end of a one-shot command: it has used them, and what they hold until the next one sets them again
is free (R30; 93 U7; log entry 5). -/
def State.leaveScratch (s : State) : State :=
  { s with
    T := (List.range s.cfg.sw).map (Config.scratchRegister s.scratchUses)
    j := Config.scratchCursor s.scratchUses
    scratchUses := s.scratchUses + 1 }

/-- The received bytes replaced. -/
def State.setRx (s : State) (b : List Byte) : State := { s with rx := b }

/-- Bytes appended to what has been sent. -/
def State.send (s : State) (b : List Byte) : State := { s with tx := s.tx ++ b }

/-! ## Responses -/

/-- The four statuses (R63, R160). -/
inductive Status where
  | ok
  | invalidFieldElement
  | illegalCommand
  | badCursor
deriving DecidableEq, Repr

/-- The status byte `ST` (R63). -/
def statusByte : Status → Byte
  | .ok => 0x00
  | .invalidFieldElement => 0x01
  | .illegalCommand => 0x02
  | .badCursor => 0x03

/-- A response frame `ST ++ RLEN8 ++ RPAYLOAD` (R63). -/
def responseFrame (st : Status) (payload : List Byte) : List Byte :=
  statusByte st :: (toLe64 payload.length ++ payload)

/-- `return v`: the command ends with status OK and response payload `v` (R18, R63). -/
def respond (payload : List Byte) (s : State) : State := s.send (responseFrame .ok payload)

/-- `raise <Name>`, the taking of an error (R17, R164, R166): one response with that status and no payload; nothing is saved,
nothing else changes, and control goes nowhere. There is no return from it (R168). -/
def raise (st : Status) (s : State) : State := s.send (responseFrame st [])

end Sys2Proof.Machine
end

