-- ==== Sys2Proof/Machine/Hasher.lean ====
section
/-! DEFINITION. The streaming hasher: NEW (R120), ABSORB (R123), ABSORBF (R124), FINALIZE (R125). -/

namespace Sys2Proof.Machine

/-- NEW (R120): `S` all zero, `IDX = 0`. -/
def execNew (payload : List Byte) (s : State) : Host.Outcome State Fault Refusal :=
  .next <|
    if payload.length ≠ 0 then raise .illegalCommand s
    else respond [] (s.setContext ⟨freshArray s.cfg, 0⟩)

/-- ABSORB (R123): each chunk's element absorbed into (`S`, `IDX`); every `LEN` is legal and no chunk fails. -/
def execAbsorb (payload : List Byte) (s : State) : Host.Outcome State Fault Refusal :=
  .next (respond [] (s.setContext (absorbAll s.cfg s.context (byteElems s.cfg payload))))

/-- ABSORBF (R124): every element decoded before any is absorbed. -/
def execAbsorbf (payload : List Byte) (s : State) : Host.Outcome State Fault Refusal :=
  .next <|
    if payload.length % 8 ≠ 0 then raise .illegalCommand s
    else
      match elemOperands s.cfg payload (payload.length / 8) with
      | none => raise .invalidFieldElement s
      | some es => respond [] (s.setContext (absorbAll s.cfg s.context es))

/-- The context after FINALIZE (R125): a pending block (`IDX > 0`) is padded and permuted and `IDX` is 0; otherwise nothing
changes. -/
def finalizeContext (c : Cfg) (sp : Sponge) : Sponge := if sp.k = 0 then sp else ⟨padOne c sp, 0⟩

/-- FINALIZE (R125): the context closed, and the digest of what it then holds. -/
def execFinalize (payload : List Byte) (s : State) : Host.Outcome State Fault Refusal :=
  .next <|
    if payload.length ≠ 0 then raise .illegalCommand s
    else
      respond (squeeze s.cfg (finalizeContext s.cfg s.context).X) (s.setContext (finalizeContext s.cfg s.context))

end Sys2Proof.Machine
end

