-- ==== Sys2Proof/Machine/OneShot.lean ====
section
/-! DEFINITION. The one-shot commands on the scratch state: HASH (R140), HASHF (R141), MERGE (R142), PERMUTE (R111). They
neither read nor write `S` and `IDX` (R144), and set `T` and `j` before they use them (R30): the value of `T` and `j` inside a
command is the array and cursor its definitions here compute. -/

namespace Sys2Proof.Machine

/-- The fresh scratch state of HASH: zeros, the chunk count mod `P` in the capacity's last slot (R140; D18). -/
def hashStart (c : Cfg) (n : Nat) : Sponge := ⟨(freshArray c).set (c.sw - 1) (fofNat c (chunkCount n)), 0⟩

/-- (`T`, `j`) after HASH's loop over the chunks (R140). -/
def hashAbsorbed (c : Cfg) (payload : List Byte) : Sponge :=
  absorbAll c (hashStart c payload.length) (byteElems c payload)

/-- `T` at the end of HASH: a pending block is permuted as it is, with no `one` added (R140). -/
def hashResult (c : Cfg) (payload : List Byte) : List Word :=
  if (hashAbsorbed c payload).k = 0 then (hashAbsorbed c payload).X else permute c (hashAbsorbed c payload).X

/-- HASH (R140): every `LEN` is legal, nothing fails. -/
def execHash (payload : List Byte) (s : State) : Host.Outcome State Fault Refusal :=
  .next (respond (squeeze s.cfg (hashResult s.cfg payload)) s.leaveScratch)

/-- (`T`, `j`) after HASHF's loop over the elements (R141). -/
def hashfAbsorbed (c : Cfg) (es : List Word) : Sponge := absorbAll c ⟨freshArray c, 0⟩ es

/-- `T` at the end of HASHF: a pending block gets `one` and is permuted (R141). -/
def hashfResult (c : Cfg) (es : List Word) : List Word :=
  if (hashfAbsorbed c es).k = 0 then (hashfAbsorbed c es).X else padOne c (hashfAbsorbed c es)

/-- HASHF (R141): every element decoded before anything is computed. -/
def execHashf (payload : List Byte) (s : State) : Host.Outcome State Fault Refusal :=
  .next <|
    if payload.length % 8 ≠ 0 then raise .illegalCommand s
    else
      match elemOperands s.cfg payload (payload.length / 8) with
      | none => raise .invalidFieldElement s
      | some es =>
        respond (squeeze s.cfg (hashfResult s.cfg es)) s.leaveScratch

/-- `T` at the end of MERGE: the two digests in positions `0 .. 2*DS-1`, zeros above, one permutation (R142). -/
def mergeResult (c : Cfg) (es : List Word) : List Word :=
  permute c (es ++ List.replicate (c.sw - es.length) 0)

/-- MERGE (R142): two digests, no padding marker. -/
def execMerge (payload : List Byte) (s : State) : Host.Outcome State Fault Refusal :=
  .next <|
    if payload.length ≠ 2 * s.cfg.ds * 8 then raise .illegalCommand s
    else
      match elemOperands s.cfg payload (2 * s.cfg.ds) with
      | none => raise .invalidFieldElement s
      | some es => respond (squeeze s.cfg (mergeResult s.cfg es)) s.leaveScratch

/-- PERMUTE (R111): `SW` elements in, the permuted `SW` elements out. -/
def execPermute (payload : List Byte) (s : State) : Host.Outcome State Fault Refusal :=
  .next <|
    if payload.length ≠ s.cfg.sw * 8 then raise .illegalCommand s
    else
      match elemOperands s.cfg payload s.cfg.sw with
      | none => raise .invalidFieldElement s
      | some es => respond (encElems (permute s.cfg es)) s.leaveScratch

end Sys2Proof.Machine
end

