-- ==== Sys2Proof/Machine/Serial.lean ====
section
/-! DEFINITION. State serialization: SAVE (R150) and RESTORE (R151), over the layout of R46. -/

namespace Sys2Proof.Machine

/-- The persisted hasher state (R46, R150): `enc8(S[i])` at offset `8i`, then `to_le64(IDX)`. -/
def persisted (sp : Sponge) : List Byte := encElems sp.X ++ toLe64 sp.k.toNat

/-- SAVE (R150): the whole context in the response; nothing written. -/
def execSave (payload : List Byte) (s : State) : Host.Outcome State Fault Refusal :=
  .next <|
    if payload.length ≠ 0 then raise .illegalCommand s
    else respond (persisted s.context) s

/-- RESTORE (R151): length, then every element, then the cursor are checked, in that order (R165); only then are `S` and
`IDX` written. -/
def execRestore (payload : List Byte) (s : State) : Host.Outcome State Fault Refusal :=
  .next <|
    if payload.length ≠ s.cfg.sw * 8 + 8 then raise .illegalCommand s
    else
      match elemOperands s.cfg payload s.cfg.sw with
      | none => raise .invalidFieldElement s
      | some es =>
        if cursorOperand s.cfg payload ≥ s.cfg.rw then raise .badCursor s
        else respond [] (s.setContext ⟨es, BitVec.ofNat 64 (cursorOperand s.cfg payload)⟩)

end Sys2Proof.Machine
end

