-- ==== Sys2Proof/Machine/Dispatch.lean ====
section
/-! DEFINITION. The dispatch: one arm per command, each one direct call of its meaning. -/

namespace Sys2Proof.Machine

def exec (i : Instr) (s : State) : Host.Outcome State Fault Refusal :=
  match i with
  -- the streaming hasher (42_hasher.md)
  | .new payload => Sys2Proof.Machine.execNew payload s
  | .absorb payload => Sys2Proof.Machine.execAbsorb payload s
  | .absorbf payload => Sys2Proof.Machine.execAbsorbf payload s
  | .finalize payload => Sys2Proof.Machine.execFinalize payload s
  -- state serialization (44_serialization.md)
  | .save payload => Sys2Proof.Machine.execSave payload s
  | .restore payload => Sys2Proof.Machine.execRestore payload s
  -- the one-shot commands (43_oneshot.md) and PERMUTE (41_permutation.md)
  | .hash payload => Sys2Proof.Machine.execHash payload s
  | .hashf payload => Sys2Proof.Machine.execHashf payload s
  | .merge payload => Sys2Proof.Machine.execMerge payload s
  | .permute payload => Sys2Proof.Machine.execPermute payload s

end Sys2Proof.Machine
end

