-- ==== Sys2Proof/Machine/Step.lean ====
section
/-! DEFINITION. One step of the engine: it takes the next whole frame from the received bytes and executes it (R20, R50,
R61), answers a reserved opcode (R67), or waits (R65). -/

namespace Sys2Proof.Machine

/-- One step. A whole frame is consumed and its command executed; a frame with a reserved opcode is consumed whole and
answered `IllegalCommand`; anything shorter is not a frame, and the engine waits and does nothing. -/
def step (s : State) : Host.Outcome State Fault Refusal :=
  match decode s.rx with
  | .instr i rest => exec i (s.setRx rest)
  | .reserved _ rest => .next (raise .illegalCommand (s.setRx rest))
  | .incomplete => .next s

/-- The frame of an opcode-table word put where the next step takes its frame, before whatever else has been received.
It stands for the host's sending that frame (log entry 7). -/
def State.withFetchWord (s : State) (nbits w : Nat) : State := s.setRx (frameOfTableWord nbits w ++ s.rx)

end Sys2Proof.Machine
end

