-- ==== Sys2Proof/Machine/HostPort.lean ====
section
/-! DEFINITION. What the host can do to the engine, and nothing else (R20, R180): send frame bytes, read response bytes,
reset. These are the host's actions between steps; no step performs one. -/

namespace Sys2Proof.Machine

/-- The host sends bytes; they arrive in order and none is dropped (R183). -/
def State.hostSend (s : State) (b : List Byte) : State := s.setRx (s.rx ++ b)

/-- The host reads the first `n` response bytes (R20). -/
def State.hostTake (s : State) (n : Nat) : List Byte × State := (s.tx.take n, { s with tx := s.tx.drop n })

/-- Reset (R180): the context is the reset context, a received frame or part of one is forgotten and gets no response, and the
configuration is untouched. Bytes already sent stay sent (log entry 8); what the scratch state holds is free (R31, log entry 5). -/
def State.hardReset (s : State) : State :=
  State.leaveScratch { State.resetOf s.variant with tx := s.tx, scratchUses := s.scratchUses }

end Sys2Proof.Machine
end

