-- ==== Sys2Proof/WellFormed.lean ====
section
/-! DEFINITION. Which commands are well formed: the payload length fits the 64-bit `LEN` field (R61) and is one the
command's format allows (R62, R65). -/

namespace Sys2Proof

/-- `LEN < 2^64` (R61): the command has a frame. -/
def Instr.encodable (i : Instr) : Bool := decide (i.payload.length < 2 ^ 64)

/-- `LEN` is legal for the command (R65). -/
def Instr.lenLegal (c : Cfg) : Instr → Bool
  | .new b => b.length == 0
  | .absorb _ => true
  | .absorbf b => b.length % 8 == 0
  | .finalize b => b.length == 0
  | .save b => b.length == 0
  | .restore b => b.length == c.sw * 8 + 8
  | .hash _ => true
  | .hashf b => b.length % 8 == 0
  | .merge b => b.length == 2 * c.ds * 8
  | .permute b => b.length == c.sw * 8

/-- A well-formed command of an instance with configuration `c`. -/
def Instr.wf (c : Cfg) (i : Instr) : Bool := i.encodable && i.lenLegal c

end Sys2Proof
end

