-- ==== Sys2Proof/Safety.lean ====
section
/-! DEFINITION. The terms statements are made in: the invariant of the hasher context, the status the spec gives each
frame, and what a safe step is. -/

namespace Sys2Proof.Machine

/-- What holds of the hasher context at every command boundary: `S` has `SW` registers, each holds a canonical field
element (R21), and `0 <= IDX <= RW - 1` (R27). -/
def State.Inv (s : State) : Prop :=
  s.S.length = s.cfg.sw ∧ canonicalAll s.cfg.p s.S = true ∧ s.IDX.toNat < s.cfg.rw

/-- The same of any array with its cursor. -/
def Sponge.Ok (c : Cfg) (sp : Sponge) : Prop :=
  sp.X.length = c.sw ∧ canonicalAll c.p sp.X = true ∧ sp.k.toNat < c.rw

/-- How many 8-byte groups of its payload a command must decode as field elements (R44, R62). -/
def elemCount (c : Cfg) : Instr → Nat
  | .new _ => 0
  | .absorb _ => 0
  | .absorbf b => b.length / 8
  | .finalize _ => 0
  | .save _ => 0
  | .restore _ => c.sw
  | .hash _ => 0
  | .hashf b => b.length / 8
  | .merge _ => 2 * c.ds
  | .permute _ => c.sw

/-- Some element group of the command's payload spells an integer of `P` or more (R161). -/
def badElement (c : Cfg) (i : Instr) : Bool :=
  (List.range (elemCount c i)).any fun k => decide (c.p ≤ le64 (memRead i.payload (8 * k) 8))

/-- The cursor field of a RESTORE payload is `RW` or more (R163). -/
def badCursorField (c : Cfg) : Instr → Bool
  | .restore b => decide (c.rw ≤ le64 (memRead b (8 * c.sw) 8))
  | .new _ => false
  | .absorb _ => false
  | .absorbf _ => false
  | .finalize _ => false
  | .save _ => false
  | .hash _ => false
  | .hashf _ => false
  | .merge _ => false
  | .permute _ => false

/-- The status the spec gives a command (R165, R176): `LEN` first, then the elements, then the cursor. -/
def statusOfInstr (c : Cfg) (i : Instr) : Status :=
  if i.lenLegal c = false then .illegalCommand
  else if badElement c i then .invalidFieldElement
  else if badCursorField c i then .badCursor
  else .ok

/-- The status the spec gives a whole frame (R165, R176): a reserved opcode before everything else. -/
def statusOfFrame (c : Cfg) (op : Byte) (payload : List Byte) : Status :=
  match instrOf op payload with
  | none => .illegalCommand
  | some i => statusOfInstr c i

/-- A run can go wrong only by an answer that is no next state, or by a broken context (R160, R164, R190). -/
def SafeStep (s : State) : Prop := ∃ t, step s = .next t ∧ t.Inv

end Sys2Proof.Machine
end

