-- ==== Sys2Proof/Certificates/Slice0/Obligations.lean ====
section
/-! DEFINITION. The statements for the provers. Each docstring names the rule of spec/ that the statement comes from. -/

open Sys2Proof Sys2Proof.Machine

/-! ## Frames -/

/-- R61, R64, R65: the decoder reads a command's frame back as the command, every payload byte of it, and leaves the bytes
after it. -/
def Obligations.DecodeOfEncodeIsTheCommand : Prop :=
  ∀ (i : Instr) (rest : List Byte), i.encodable = true → decode (encode i ++ rest) = .instr i rest

/-- R61, R68: the decoder takes a command from nothing but that command's frame, and drops no byte. -/
def Obligations.DecodedBytesAreTheEncodedFrame : Prop :=
  ∀ (bytes : List Byte) (i : Instr) (rest : List Byte),
    decode bytes = .instr i rest → bytes = encode i ++ rest ∧ i.encodable = true

/-- R61, R64: frames written out in 95_test_vectors.md (P1, V30, V33, V60's header, V68) decode to the command they stand
for. -/
def Obligations.WrittenFramesDecode : Prop :=
  decode [0x01, 0, 0, 0, 0, 0, 0, 0, 0] = .instr (.new []) [] ∧
    decode [0x10, 0x03, 0, 0, 0, 0, 0, 0, 0, 0x61, 0x62, 0x63] = .instr (.hash [0x61, 0x62, 0x63]) [] ∧
    decode [0x12, 0x10, 0, 0, 0, 0, 0, 0, 0, 5, 0, 0, 0, 0, 0, 0, 0, 6, 0, 0, 0, 0, 0, 0, 0] =
      .instr (.merge [5, 0, 0, 0, 0, 0, 0, 0, 6, 0, 0, 0, 0, 0, 0, 0]) [] ∧
    decode [0x06, 0x28, 0, 0, 0, 0, 0, 0, 0] = .incomplete ∧
    decode [0x00, 0x03, 0, 0, 0, 0, 0, 0, 0, 0x78, 0x79, 0x7a, 0x05] = .reserved 0x00 [0x05]

/-- R20, R50: when the received bytes begin with a command's frame, the step is that command's meaning on the same state
with the frame consumed, and nothing else of the state is touched before it. -/
def Obligations.StepRunsTheDecodedCommand : Prop :=
  ∀ (s : State) (i : Instr) (rest : List Byte), decode s.rx = .instr i rest →
    step s = exec i (s.setRx rest) ∧ s.setRx rest = { s with rx := rest }

/-- R65: a frame shorter than `9 + LEN` bytes is not a frame; the engine waits and does nothing. -/
def Obligations.StepWaitsForTheRestOfAFrame : Prop :=
  ∀ s : State, (s.rx.length < 9 ∨ s.rx.length < 9 + le64 ((s.rx.drop 1).take 8)) → step s = .next s

/-- R50, R183: bytes that arrive behind a whole frame do not change what it does; they stay in order behind it. -/
def Obligations.LaterBytesDoNotChangeAFrame : Prop :=
  ∀ (s : State) (more : List Byte), decode s.rx ≠ .incomplete →
    ∃ t, step s = .next t ∧ step (s.hostSend more) = .next (t.hostSend more)

/-- R67: a whole frame with a reserved opcode, or with a defined opcode and an illegal `LEN`, is consumed whole, changes no
state and is answered `IllegalCommand`; every other whole frame is one of the ten commands with a legal `LEN`. -/
def Obligations.ReservedOpcodeOrIllegalLenIsRefusedWhole : Prop :=
  ∀ (s : State) (op : Byte) (payload rest : List Byte),
    payload.length < 2 ^ 64 → s.rx = commandFrame op payload ++ rest →
      (op ∉ ([0x01, 0x02, 0x03, 0x04, 0x05, 0x06, 0x10, 0x11, 0x12, 0x20] : List Byte) →
        step s = .next { s with rx := rest, tx := s.tx ++ responseFrame .illegalCommand [] }) ∧
      (op ∈ ([0x01, 0x02, 0x03, 0x04, 0x05, 0x06, 0x10, 0x11, 0x12, 0x20] : List Byte) →
        ∃ i, opcodeOf i = op ∧ i.payload = payload ∧
          (i.lenLegal s.cfg = false →
            step s = .next { s with rx := rest, tx := s.tx ++ responseFrame .illegalCommand [] }) ∧
          (i.lenLegal s.cfg = true → step s = exec i { s with rx := rest }))

/-! ## The whole machine -/

/-- R63, R161 to R165, R176: every whole frame is answered by exactly one response, whose status is the one the rules give it in
their order (reserved opcode, `LEN`, elements, cursor); an error's response is empty, and it changes nothing but that the
frame is consumed and the response sent. -/
def Obligations.EveryFrameGetsItsStatus : Prop :=
  ∀ (s : State) (op : Byte) (payload rest : List Byte),
    payload.length < 2 ^ 64 → s.rx = commandFrame op payload ++ rest →
      ∃ t p, step s = .next t ∧ t.rx = rest ∧
        t.tx = s.tx ++ responseFrame (statusOfFrame s.cfg op payload) p ∧
        (statusOfFrame s.cfg op payload ≠ .ok →
          p = [] ∧ t.S = s.S ∧ t.IDX = s.IDX ∧ t.T = s.T ∧ t.j = s.j ∧
            t.scratchUses = s.scratchUses ∧ t.variant = s.variant)

/-- R160, R164, R190: nothing stops the engine; every step, from every state, answers a next state, and from a state with the
invariant it is a safe step. -/
def Obligations.EveryStepAnswersANextState : Prop :=
  (∀ s : State, ∃ t, step s = .next t) ∧ ∀ s : State, s.Inv → SafeStep s

/-- R31: after reset every `S[i]` is 0, `IDX` is 0 and the engine is idle, for every variant and so for the machine's own; this
context meets the invariant. -/
def Obligations.ResetMeetsTheInvariant : Prop :=
  (∀ v : Variant, (State.resetOf v).variant = v ∧ (∀ i, (State.resetOf v).S[i]? = if i < v.cfg.sw then some 0 else none) ∧
    (State.resetOf v).IDX = 0 ∧ step (State.resetOf v) = .next (State.resetOf v) ∧ (State.resetOf v).Inv) ∧
    State.reset = State.resetOf Config.variant ∧ State.reset.Inv

/-- R21, R27: at every command boundary `S` has `SW` canonical elements and `0 <= IDX <= RW - 1`; R32: the configuration is
never written. -/
def Obligations.EveryStepKeepsTheInvariant : Prop :=
  ∀ s t : State, s.Inv → step s = .next t → t.Inv ∧ t.variant = s.variant

/-- R29, R30: what a step does depends on the variant, `S`, `IDX` and the received bytes alone; what an earlier command left
in `T` and `j`, how often the scratch state was used, or what was sent, is never read. -/
def Obligations.StepReadsOnlyTheContext : Prop :=
  ∀ s₁ s₂ : State, s₁.variant = s₂.variant → s₁.S = s₂.S → s₁.IDX = s₂.IDX → s₁.rx = s₂.rx →
    ∃ t₁ t₂ out, step s₁ = .next t₁ ∧ step s₂ = .next t₂ ∧
      t₁.variant = t₂.variant ∧ t₁.S = t₂.S ∧ t₁.IDX = t₂.IDX ∧ t₁.rx = t₂.rx ∧
      t₁.tx = s₁.tx ++ out ∧ t₂.tx = s₂.tx ++ out

/-- R144: HASH, HASHF, MERGE and PERMUTE are functions of their payload and the configuration: the response is the same from
every state, and the context, the received bytes and the configuration are as before. So one of them sent between two
commands changes neither the response nor the context of the second. -/
def Obligations.OneShotCommandsArePure : Prop :=
  ∀ (v : Variant) (b : List Byte) (i : Instr), i ∈ [Instr.hash b, .hashf b, .merge b, .permute b] →
    ∃ out, ∀ s : State, s.variant = v → ∃ t, exec i s = .next t ∧
      t.variant = s.variant ∧ t.S = s.S ∧ t.IDX = s.IDX ∧ t.rx = s.rx ∧ t.tx = s.tx ++ out ∧
      ∀ k : Instr, ∃ u w o, exec k s = .next u ∧ exec k t = .next w ∧
        u.tx = s.tx ++ o ∧ w.tx = t.tx ++ o ∧ w.S = u.S ∧ w.IDX = u.IDX

/-- R24, R27, R30, R31: what each command leaves unchanged. No command touches the configuration, the received bytes or what
has been sent already; only NEW, ABSORB, ABSORBF, FINALIZE and RESTORE may write `S` and `IDX`; only HASH, HASHF, MERGE and
PERMUTE may use the scratch state `T`, `j`; SAVE writes no register. That the other commands keep `T` and `j` is the model's
choice (log entry 5): the spec gives them any value between commands (93 U7). -/
def Obligations.CommandsWriteOnlyTheirRegisters : Prop :=
  ∀ (i : Instr) (s : State), ∃ t, exec i s = .next t ∧
    t.variant = s.variant ∧ t.rx = s.rx ∧ (∃ out, t.tx = s.tx ++ out) ∧
    (match i with
      | .new _ | .absorb _ | .absorbf _ | .finalize _ | .restore _ =>
        t.T = s.T ∧ t.j = s.j ∧ t.scratchUses = s.scratchUses
      | .save _ => t.S = s.S ∧ t.IDX = s.IDX ∧ t.T = s.T ∧ t.j = s.j ∧ t.scratchUses = s.scratchUses
      | .hash _ | .hashf _ | .merge _ | .permute _ => t.S = s.S ∧ t.IDX = s.IDX)

/-- R180: after reset the context is the fresh one, a partly received frame is forgotten without a response, the
configuration is untouched, and the engine is idle; SAVE then answers `SW * 8 + 8` zero bytes (R150). Two clauses are the
model's choice and not R180's (log entry 8): that whole frames that wait are forgotten too, and that bytes already sent stay
sent. -/
def Obligations.ResetAbandonsEverything : Prop :=
  ∀ s : State,
    (∀ i, s.hardReset.S[i]? = if i < s.cfg.sw then some 0 else none) ∧ s.hardReset.IDX = 0 ∧
      s.hardReset.variant = s.variant ∧ s.hardReset.tx = s.tx ∧
      step s.hardReset = .next s.hardReset ∧
      step (s.hardReset.hostSend (encode (.save []))) =
        .next (s.hardReset.send (responseFrame .ok (List.replicate (s.cfg.sw * 8 + 8) 0)))

/-! ## NEW, ABSORB, ABSORBF, FINALIZE -/

/-- R120: NEW. Without a payload `S` is all zero and `IDX` 0 and the answer is an empty OK; with one it is refused and nothing
is cleared. -/
def Obligations.NewGivesTheFreshContext : Prop :=
  ∀ s : State,
    exec (.new []) s = .next { s with
      S := List.replicate s.cfg.sw 0, IDX := 0, tx := s.tx ++ [0x00, 0, 0, 0, 0, 0, 0, 0, 0] } ∧
    ∀ b, b ≠ [] → exec (.new b) s = .next { s with tx := s.tx ++ [0x02, 0, 0, 0, 0, 0, 0, 0, 0] }

/-- R121, R124: one element is added at `S[IDX]` and `IDX` advances; when that fills the block the permutation runs and `IDX` is
0. -/
def Obligations.AbsorbfAddsOneElementAtTheCursor : Prop :=
  ∀ (s : State) (e : Word), e.toNat < s.cfg.p → s.IDX.toNat < s.cfg.rw →
    ∃ x, x = s.S.set s.IDX.toNat (fadd s.cfg (s.S.getD s.IDX.toNat 0) e) ∧
      (s.IDX.toNat + 1 = s.cfg.rw → exec (.absorbf (enc8 e)) s =
        .next { s with S := permute s.cfg x, IDX := 0, tx := s.tx ++ responseFrame .ok [] }) ∧
      (s.IDX.toNat + 1 < s.cfg.rw → exec (.absorbf (enc8 e)) s =
        .next { s with S := x, IDX := s.IDX + 1, tx := s.tx ++ responseFrame .ok [] })

/-- R121, R124, R24: elements that do not fill the block are added into the rate positions from `IDX` on, one each; every other
position, the whole capacity among them, is as before, and `IDX` has advanced by their number. -/
def Obligations.AbsorbfWithinABlockAddsIntoTheRate : Prop :=
  ∀ (s : State) (es : List Word), s.Inv → canonicalAll s.cfg.p es = true → s.IDX.toNat + es.length < s.cfg.rw →
    ∃ t, exec (.absorbf (encElems es)) s = .next t ∧ t.tx = s.tx ++ responseFrame .ok [] ∧
      t.IDX.toNat = s.IDX.toNat + es.length ∧ t.S.length = s.S.length ∧
      ∀ k, t.S.getD k 0 =
        if s.IDX.toNat ≤ k ∧ k < s.IDX.toNat + es.length then
          fadd s.cfg (s.S.getD k 0) (es.getD (k - s.IDX.toNat) 0)
        else s.S.getD k 0

/-- R124, R129: absorbing two lists in two commands is absorbing their concatenation in one, and absorbing nothing changes
nothing. -/
def Obligations.AbsorbfIsSplitInvariant : Prop :=
  ∀ (s : State) (xs ys : List Word), canonicalAll s.cfg.p xs = true → canonicalAll s.cfg.p ys = true →
    ∃ t u w, exec (.absorbf (encElems (xs ++ ys))) s = .next t ∧ exec (.absorbf (encElems xs)) s = .next u ∧
      exec (.absorbf (encElems ys)) u = .next w ∧ t.S = w.S ∧ t.IDX = w.IDX ∧
      exec (.absorbf []) s = .next { s with tx := s.tx ++ responseFrame .ok [] }

/-- R123, R92: ABSORB of a byte string, of any length, is ABSORBF of its chunks' elements; no chunk can fail. -/
def Obligations.AbsorbIsAbsorbfOfTheChunkElements : Prop :=
  ∀ (s : State) (b : List Byte), ∃ t, exec (.absorb b) s = .next t ∧
    exec (.absorbf (encElems (byteElems s.cfg b))) s = .next t ∧ t.tx = s.tx ++ responseFrame .ok []

/-- R122: no element for the empty input; one marked element for 1 to 7 bytes; otherwise 7 bytes without a marker, then the
rest. -/
def Obligations.ByteInputIsCutIntoSevenByteChunks : Prop :=
  ∀ c : Cfg, byteElems c [] = [] ∧
    (∀ b, 1 ≤ b.length → b.length ≤ 7 → byteElems c b = [chunkToField c b true]) ∧
    ∀ a b, a.length = 7 → b ≠ [] → byteElems c (a ++ b) = chunkToField c a false :: byteElems c b

/-- R92: the element of a chunk is the integer its bytes spell, plus the marker's weight for a last chunk, and it is
canonical. -/
def Obligations.ChunkElementIsBytesPlusMarker : Prop :=
  ∀ (v : Variant) (chunk : List Byte) (last : Bool), 1 ≤ chunk.length → chunk.length ≤ 7 →
    (last = false → chunk.length = 7) →
      (chunkToField v.cfg chunk last).toNat = leNat chunk + (if last then 256 ^ chunk.length else 0) ∧
        (chunkToField v.cfg chunk last).toNat < v.cfg.p

/-- R128: however a byte message is split into two commands with input, the absorbed elements change. -/
def Obligations.SplittingAByteMessageChangesItsElements : Prop :=
  ∀ (v : Variant) (a b : List Byte), a ≠ [] → b ≠ [] →
    byteElems v.cfg (a ++ b) ≠ byteElems v.cfg a ++ byteElems v.cfg b

/-- R125: FINALIZE with a block pending leaves the context that ABSORBF of `one` and of the zeros that fill the block leaves,
with no block pending the context as it is; `IDX` is 0 either way and the digest is the first `DS` elements. That `T`, `j` and
the model's counter stay as they are is the model's choice (log entry 5). -/
def Obligations.FinalizeIsAbsorbingOneAndZeros : Prop :=
  ∀ s : State, s.Inv →
    ∃ t, exec (.finalize []) s = .next t ∧ t.IDX = 0 ∧ t.T = s.T ∧ t.j = s.j ∧ t.scratchUses = s.scratchUses ∧ t.rx = s.rx ∧ t.variant = s.variant ∧
      t.tx = s.tx ++ responseFrame .ok (encElems (t.S.take s.cfg.ds)) ∧
      (s.IDX = 0 → t.S = s.S) ∧
      (s.IDX ≠ 0 → ∃ u,
        exec (.absorbf (encElems (1 :: List.replicate (s.cfg.rw - 1 - s.IDX.toNat) 0))) s = .next u ∧
          t.S = u.S ∧ u.IDX = 0)

/-- R130: a second FINALIZE straight after the first answers the same digest and changes nothing. -/
def Obligations.FinalizeTwiceAnswersTheSameDigest : Prop :=
  ∀ s t : State, exec (.finalize []) s = .next t →
    ∃ p, t.tx = s.tx ++ responseFrame .ok p ∧
      exec (.finalize []) t = .next { t with tx := t.tx ++ responseFrame .ok p }

/-- R131 (a), R125: FINALIZE of the fresh context permutes nothing and answers `DS` zero elements. -/
def Obligations.EmptyMessageHasTheZeroDigest : Prop :=
  ∀ v : Variant, exec (.finalize []) (State.resetOf v) =
    .next { State.resetOf v with tx := responseFrame .ok (List.replicate (8 * v.cfg.ds) 0) }

/-! ## HASH, HASHF, MERGE, PERMUTE -/

/-- R140: HASH answers the digest of the array that ABSORB of the same bytes makes of the state whose last capacity element is the
chunk count, permuted once more if a block is pending, with no `one` added. -/
def Obligations.HashIsAbsorbFromTheCountedState : Prop :=
  ∀ (s : State) (b : List Byte), ∃ t u,
    exec (.absorb b) { s with
      S := (List.replicate s.cfg.sw 0).set (s.cfg.sw - 1) (BitVec.ofNat 64 ((b.length + 6) / 7 % s.cfg.p)), IDX := 0 } =
        .next u ∧
    exec (.hash b) s = .next t ∧ t.S = s.S ∧ t.IDX = s.IDX ∧
    t.tx = s.tx ++ responseFrame .ok
      (encElems ((if u.IDX = 0 then u.S else permute s.cfg u.S).take s.cfg.ds))

/-- R140, V70 (i): HASH of 1 to 7 bytes permutes `[e, 0, ..., 0, 1]` once, with `e` the marked chunk. -/
def Obligations.ShortHashPermutesOnce : Prop :=
  ∀ (s : State) (b : List Byte), 1 ≤ b.length → b.length ≤ 7 →
    ∃ t, exec (.hash b) s = .next t ∧
      t.tx = s.tx ++ responseFrame .ok (encElems
        ((permute s.cfg (chunkToField s.cfg b true :: (List.replicate (s.cfg.sw - 2) 0 ++ [1]))).take s.cfg.ds))

/-- R141: HASHF. A length that is no multiple of 8, then an element that is not canonical is refused; otherwise the digest is
that of the array ABSORBF of the same elements makes of the zero state, with `one` added at the cursor and a permutation when a
block is pending. The context is untouched. -/
def Obligations.HashfIsAbsorbfFromTheZeroState : Prop :=
  ∀ (s : State) (b : List Byte),
    (b.length % 8 ≠ 0 → exec (.hashf b) s = .next { s with tx := s.tx ++ responseFrame .illegalCommand [] }) ∧
    (b.length % 8 = 0 → (∃ k < b.length / 8, s.cfg.p ≤ le64 (memRead b (8 * k) 8)) →
      exec (.hashf b) s = .next { s with tx := s.tx ++ responseFrame .invalidFieldElement [] }) ∧
    (b.length % 8 = 0 → (∀ k < b.length / 8, le64 (memRead b (8 * k) 8) < s.cfg.p) →
      ∃ t u, exec (.absorbf b) { s with S := List.replicate s.cfg.sw 0, IDX := 0 } = .next u ∧
        exec (.hashf b) s = .next t ∧ t.S = s.S ∧ t.IDX = s.IDX ∧ t.rx = s.rx ∧ t.variant = s.variant ∧
        t.tx = s.tx ++ responseFrame .ok (encElems
          ((if u.IDX = 0 then u.S
            else permute s.cfg (u.S.set u.IDX.toNat (fadd s.cfg (u.S.getD u.IDX.toNat 0) 1))).take s.cfg.ds)))

/-- R129, R143: HASHF of a message answers what NEW, ABSORBF of its parts however it is cut (empty parts among them), and
FINALIZE answer; and, which R129 marks as its own inference, the context after the ABSORBF commands does not depend on the cut.
The frames are run by the engine from the received bytes. -/
def Obligations.HashfEqualsTheStreamingCommands : Prop :=
  ∀ (s : State) (parts : List (List Word)),
    (∀ part ∈ parts, canonicalAll s.cfg.p part = true) → 8 * parts.flatten.length < 2 ^ 64 →
      (∃ t u pre r,
        Host.Core.run Sys2Proof.core (parts.length + 2)
          (s.setRx (encode (.new []) ++ parts.flatMap (fun part => encode (.absorbf (encElems part))) ++
            encode (.finalize []))) = .next t ∧
        step (s.setRx (encode (.hashf (encElems parts.flatten)))) = .next u ∧
        t.tx = pre ++ r ∧ u.tx = s.tx ++ r ∧ 9 ≤ r.length) ∧
      (∃ t u,
        Host.Core.run Sys2Proof.core (parts.length + 1)
          (s.setRx (encode (.new []) ++ parts.flatMap (fun part => encode (.absorbf (encElems part))))) = .next t ∧
        Host.Core.run Sys2Proof.core 2
          (s.setRx (encode (.new []) ++ encode (.absorbf (encElems parts.flatten)))) = .next u ∧
        t.S = u.S ∧ t.IDX = u.IDX)

/-- R131 (c), R141: a message that does not fill its last block and the message filled up with `one` and zeros have the same
HASHF digest. -/
def Obligations.HashfPaddingCollision : Prop :=
  ∀ (s : State) (m : List Word), canonicalAll s.cfg.p m = true → m.length % s.cfg.rw ≠ 0 →
    ∃ t u r,
      exec (.hashf (encElems m)) s = .next t ∧
      exec (.hashf (encElems (m ++ 1 :: List.replicate (s.cfg.rw - m.length % s.cfg.rw - 1) 0))) s = .next u ∧
      t.tx = s.tx ++ responseFrame .ok r ∧ u.tx = s.tx ++ responseFrame .ok r

/-- R142: MERGE. A wrong length, then an element that is not canonical is refused; otherwise the first digest is placed at
`0 .. DS-1` and the second from `DS` on, zeros above, one permutation runs, and the first `DS` elements are answered; the context
is untouched. That the next state's scratch state is `leaveScratch`, free values of `T` and `j` and one more use counted, is the
model's choice (log entry 5). -/
def Obligations.MergePermutesTheTwoDigests : Prop :=
  ∀ s : State,
    (∀ b : List Byte, b.length ≠ 2 * s.cfg.ds * 8 →
      exec (.merge b) s = .next { s with tx := s.tx ++ responseFrame .illegalCommand [] }) ∧
    (∀ b : List Byte, b.length = 2 * s.cfg.ds * 8 → (∃ k < 2 * s.cfg.ds, s.cfg.p ≤ le64 (memRead b (8 * k) 8)) →
      exec (.merge b) s = .next { s with tx := s.tx ++ responseFrame .invalidFieldElement [] }) ∧
    ∀ d₀ d₁ : List Word, d₀.length = s.cfg.ds → d₁.length = s.cfg.ds →
      canonicalAll s.cfg.p d₀ = true → canonicalAll s.cfg.p d₁ = true →
        ∃ x, x = permute s.cfg (d₀ ++ d₁ ++ List.replicate (s.cfg.sw - 2 * s.cfg.ds) 0) ∧
          exec (.merge (encElems d₀ ++ encElems d₁)) s =
            .next { s.leaveScratch with tx := s.tx ++ responseFrame .ok (encElems (x.take s.cfg.ds)) }

/-- R142: when two digests fill the rate, MERGE of them answers what HASHF of their elements answers. -/
def Obligations.MergeIsHashfWhenDigestsFillTheRate : Prop :=
  ∀ (s : State) (d₀ d₁ : List Word), 2 * s.cfg.ds = s.cfg.rw → d₀.length = s.cfg.ds → d₁.length = s.cfg.ds →
    canonicalAll s.cfg.p d₀ = true → canonicalAll s.cfg.p d₁ = true →
      ∃ t u, exec (.merge (encElems d₀ ++ encElems d₁)) s = .next t ∧
        exec (.hashf (encElems (d₀ ++ d₁))) s = .next u ∧ t.tx = u.tx

/-- R111: PERMUTE. A wrong length, then an element that is not canonical is refused; otherwise the permuted state is answered,
`SW` elements in and `SW` out, and nothing but the scratch state is touched. That the next state's scratch state is
`leaveScratch`, free values of `T` and `j` and one more use counted, is the model's choice (log entry 5). -/
def Obligations.PermuteAnswersThePermutedState : Prop :=
  ∀ s : State,
    (∀ b : List Byte, b.length ≠ s.cfg.sw * 8 →
      exec (.permute b) s = .next { s with tx := s.tx ++ responseFrame .illegalCommand [] }) ∧
    (∀ b : List Byte, b.length = s.cfg.sw * 8 → (∃ k < s.cfg.sw, s.cfg.p ≤ le64 (memRead b (8 * k) 8)) →
      exec (.permute b) s = .next { s with tx := s.tx ++ responseFrame .invalidFieldElement [] }) ∧
    ∀ x : List Word, x.length = s.cfg.sw → canonicalAll s.cfg.p x = true →
      exec (.permute (encElems x)) s =
          .next { s.leaveScratch with tx := s.tx ++ responseFrame .ok (encElems (permute s.cfg x)) } ∧
        (encElems (permute s.cfg x)).length = s.cfg.sw * 8

/-! ## SAVE and RESTORE -/

/-- R46, R150: SAVE answers `SW * 8 + 8` bytes, `enc8(S[i])` at offset `8i` and `to_le64(IDX)` at offset `8 * SW`, and writes no
register; with a payload it is refused. -/
def Obligations.SaveAnswersThePersistedState : Prop :=
  ∀ s : State, s.S.length = s.cfg.sw →
    (∃ p, exec (.save []) s = .next { s with tx := s.tx ++ responseFrame .ok p } ∧ p.length = s.cfg.sw * 8 + 8 ∧
      (∀ i (hi : i < s.S.length), memRead p (8 * i) 8 = enc8 s.S[i]) ∧
      memRead p (8 * s.cfg.sw) 8 = toLe64 s.IDX.toNat) ∧
    ∀ b, b ≠ [] → exec (.save b) s = .next { s with tx := s.tx ++ responseFrame .illegalCommand [] }

/-- R151: RESTORE. A wrong length, then a group that is not canonical, then a cursor of `RW` or more is refused and leaves the
former context; otherwise every `S[i]` is the element group `i` spells and `IDX` is the cursor. -/
def Obligations.RestoreWritesTheContextOrNothing : Prop :=
  ∀ (s : State) (b : List Byte),
    (b.length ≠ s.cfg.sw * 8 + 8 →
      exec (.restore b) s = .next { s with tx := s.tx ++ responseFrame .illegalCommand [] }) ∧
    (b.length = s.cfg.sw * 8 + 8 → (∃ i < s.cfg.sw, s.cfg.p ≤ le64 (memRead b (8 * i) 8)) →
      exec (.restore b) s = .next { s with tx := s.tx ++ responseFrame .invalidFieldElement [] }) ∧
    (b.length = s.cfg.sw * 8 + 8 → (∀ i < s.cfg.sw, le64 (memRead b (8 * i) 8) < s.cfg.p) →
      s.cfg.rw ≤ le64 (memRead b (8 * s.cfg.sw) 8) →
        exec (.restore b) s = .next { s with tx := s.tx ++ responseFrame .badCursor [] }) ∧
    (b.length = s.cfg.sw * 8 + 8 → (∀ i < s.cfg.sw, le64 (memRead b (8 * i) 8) < s.cfg.p) →
      le64 (memRead b (8 * s.cfg.sw) 8) < s.cfg.rw →
        ∃ x k, exec (.restore b) s = .next { s with S := x, IDX := k, tx := s.tx ++ responseFrame .ok [] } ∧
          x.length = s.cfg.sw ∧ (∀ i < s.cfg.sw, (x.getD i 0).toNat = le64 (memRead b (8 * i) 8)) ∧
          k.toNat = le64 (memRead b (8 * s.cfg.sw) 8))

/-- R152: what SAVE answers, sent as the payload of RESTORE to any instance of the same variant, is accepted and gives that
instance the saved `S` and `IDX`. -/
def Obligations.SaveThenRestoreGivesTheContextBack : Prop :=
  ∀ s u : State, s.Inv → u.variant = s.variant →
    ∃ t p w, exec (.save []) s = .next t ∧ t.tx = s.tx ++ responseFrame .ok p ∧
      exec (.restore p) u = .next w ∧ w.tx = u.tx ++ responseFrame .ok [] ∧ w.S = s.S ∧ w.IDX = s.IDX

/-- R152: SAVE after an accepted RESTORE answers the restored bytes. -/
def Obligations.RestoreThenSaveAnswersTheSameBytes : Prop :=
  ∀ (s t : State) (b : List Byte), exec (.restore b) s = .next t → t.tx = s.tx ++ responseFrame .ok [] →
    exec (.save []) t = .next { t with tx := t.tx ++ responseFrame .ok b }

/-! ## Field arithmetic and the codec -/

/-- R81, R82, R83: addition, subtraction and multiplication of field elements are exact modulo `P`. -/
def Obligations.FieldOperationsAreExact : Prop :=
  ∀ (v : Variant) (a b : Word), a.toNat < v.cfg.p → b.toNat < v.cfg.p →
    (fadd v.cfg a b).toNat = (a.toNat + b.toNat) % v.cfg.p ∧
      (fsub v.cfg a b).toNat = (if b.toNat ≤ a.toNat then a.toNat - b.toNat else a.toNat + v.cfg.p - b.toNat) ∧
      (fmul v.cfg a b).toNat = a.toNat * b.toNat % v.cfg.p

/-- R86: `fpow(a, 0) = 1` (also for `a = 0`) and `fpow(a, e + 1) = fmul(fpow(a, e), a)`. -/
def Obligations.PowerIsRepeatedMultiplication : Prop :=
  ∀ (v : Variant) (a : Word), fpow v.cfg a 0 = 1 ∧ ∀ e, fpow v.cfg a (e + 1) = fmul v.cfg (fpow v.cfg a e) a

/-- R87: the inverse S-box undoes the S-box and the other way round, on every field element. That the exponent is the inverse
of `ALPHA` modulo `P - 1` is marked as general knowledge in R87 (93 G2; log entry 14, DEDUCED). -/
def Obligations.InverseSboxUndoesTheSbox : Prop :=
  ∀ (v : Variant) (a : Word), a.toNat < v.cfg.p →
    finvSbox v.cfg (sbox v.cfg a) = a ∧ sbox v.cfg (finvSbox v.cfg a) = a

/-- R91, and R89 for the first clause: the bytes of `enc8` are the base-256 digits of the element; decoding fails exactly on integers of `P` or more,
undoes the encoding, and the encoding undoes it. -/
def Obligations.ElementCodecRoundTrip : Prop :=
  ∀ v : Variant,
    (∀ (a : Word) (k : Nat), k < 8 → ((enc8 a).getD k 0).toNat = a.toNat / 256 ^ k % 256) ∧
    (∀ a : Word, a.toNat < v.cfg.p → dec8 v.cfg (enc8 a) = some a) ∧
    (∀ b : List Byte, b.length = 8 → v.cfg.p ≤ le64 b → dec8 v.cfg b = none) ∧
    ∀ b : List Byte, b.length = 8 → le64 b < v.cfg.p →
      ∃ a, dec8 v.cfg b = some a ∧ a.toNat = le64 b ∧ enc8 a = b

/-! ## The permutation -/

/-- R101: output lane `i` of the matrix-vector product is the exact sum of row `i` times the old vector, modulo `P`. That the
table is read row first and multiplies a column vector is marked as general knowledge in R101 (93 G8; log entry 14, DEDUCED). -/
def Obligations.MdsMulIsTheNaiveProduct : Prop :=
  ∀ (v : Variant) (x : List Word), x.length = v.cfg.mdsSide →
    (mdsMul v.cfg v.cfg.mds x).length = v.cfg.mdsSide ∧
      ∀ i < v.cfg.mdsSide, ((mdsMul v.cfg v.cfg.mds x).getD i 0).toNat =
        (∑ k ∈ Finset.range v.cfg.mdsSide, ((v.cfg.mds.getD i []).getD k 0).toNat * (x.getD k 0).toNat) % v.cfg.p

/-- R100, R104, R110: `permute` runs the rounds `0 .. NR - 1` in order; for `rescue` nothing follows, for `flystel` one more
diffusion (R107), the copy of `y[0]` over `y[last]` included, where the variant has it. The sums of that diffusion read the
matrix row first, which R101 marks as general knowledge (93 G8; log entry 14, DEDUCED); that it includes the copy R110 states,
by the spec's decision D17 (log entry 14 names it too). -/
def Obligations.PermuteRunsItsRoundsInOrder : Prop :=
  ∀ (v : Variant) (x : List Word), x.length = v.cfg.sw → ∃ a : Nat → List Word, a 0 = x ∧
    (∀ rc1 rc2, v.cfg.family = .rescue rc1 rc2 →
      (∀ r < v.cfg.nr, a (r + 1) = rescueRound v.cfg rc1 rc2 (a r) r) ∧ permute v.cfg x = a v.cfg.nr) ∧
    ∀ beta delta cs ds yPre, v.cfg.family = .flystel beta delta cs ds yPre →
      (∀ r < v.cfg.nr, a (r + 1) = flystelRound v.cfg beta delta cs ds yPre (a r) r) ∧
      (permute v.cfg x).length = v.cfg.sw ∧
      ∀ i < v.cfg.nc,
        ((permute v.cfg x).getD i 0).toNat =
          (∑ k ∈ Finset.range v.cfg.nc,
            ((v.cfg.mds.getD i []).getD k 0).toNat * ((a v.cfg.nr).getD k 0).toNat) % v.cfg.p ∧
        ((permute v.cfg x).getD (v.cfg.nc + i) 0).toNat =
          (∑ k ∈ Finset.range v.cfg.nc, ((v.cfg.mds.getD i []).getD k 0).toNat *
            ((a v.cfg.nr).getD (v.cfg.nc + if yPre = .copyLastFromFirst ∧ k = v.cfg.nc - 1 then 0 else k) 0).toNat) %
              v.cfg.p

/-- R103: a rescue round as one formula over the field: S-box, matrix, first constants, inverse S-box, matrix, second
constants. The sums read the matrix row first, which R101 marks as general knowledge (93 G8; log entry 14, DEDUCED). -/
def Obligations.RescueRoundInTheField : Prop :=
  ∀ (v : Variant) (rc1 rc2 : Table) (x : List Word) (r i : Nat), v.cfg.family = .rescue rc1 rc2 →
    x.length = v.cfg.sw → r < v.cfg.nr → i < v.cfg.sw →
      ((((rescueRound v.cfg rc1 rc2 x r).getD i 0).toNat : Nat) : ZMod v.cfg.p) =
        ∑ k ∈ Finset.range v.cfg.sw, (((v.cfg.mds.getD i []).getD k 0).toNat : ZMod v.cfg.p) *
          (∑ l ∈ Finset.range v.cfg.sw, (((v.cfg.mds.getD k []).getD l 0).toNat : ZMod v.cfg.p) *
              ((x.getD l 0).toNat : ZMod v.cfg.p) ^ v.cfg.alpha +
            (((rc1.getD r []).getD k 0).toNat : ZMod v.cfg.p)) ^ v.cfg.alphaInv +
        (((rc2.getD r []).getD i 0).toNat : ZMod v.cfg.p)

/-- R108: one column of the flystel layer as formulas over the field: `y' = y - (x - β y²)^(1/α)` and
`x' = x - β y² + β y'² + δ`. -/
def Obligations.FlystelColumnInTheField : Prop :=
  ∀ (v : Variant) (beta delta x y : Word),
    (((flystelColumn v.cfg beta delta x y).2.toNat : Nat) : ZMod v.cfg.p) =
        (y.toNat : ZMod v.cfg.p) -
          ((x.toNat : ZMod v.cfg.p) - (beta.toNat : ZMod v.cfg.p) * (y.toNat : ZMod v.cfg.p) ^ 2) ^ v.cfg.alphaInv ∧
      (((flystelColumn v.cfg beta delta x y).1.toNat : Nat) : ZMod v.cfg.p) =
        (x.toNat : ZMod v.cfg.p) - (beta.toNat : ZMod v.cfg.p) * (y.toNat : ZMod v.cfg.p) ^ 2 +
          (beta.toNat : ZMod v.cfg.p) * (((flystelColumn v.cfg beta delta x y).2.toNat : Nat) : ZMod v.cfg.p) ^ 2 +
          (delta.toNat : ZMod v.cfg.p)

/-- R105 to R109: a flystel round acts on column `i` of the two halves as constants, the matrix on each half (after the
`Y_PRE` step on `y`), and the flystel column; position `i` of the result is the new `x[i]`, position `NC + i` the new `y[i]`. The
sums read the matrix row first, which R101 marks as general knowledge (93 G8; log entry 14, DEDUCED). -/
def Obligations.FlystelRoundActsOnItsColumns : Prop :=
  ∀ (v : Variant) (beta delta : Word) (cs ds : Table) (yPre : YPre) (x : List Word) (r i : Nat),
    v.cfg.family = .flystel beta delta cs ds yPre → x.length = v.cfg.sw → r < v.cfg.nr → i < v.cfg.nc →
      ∃ a b : Nat → Nat, ∃ u w : Word,
        (∀ k < v.cfg.nc, a k = ((x.getD k 0).toNat + ((cs.getD r []).getD k 0).toNat) % v.cfg.p) ∧
        (∀ k < v.cfg.nc, b k = ((x.getD (v.cfg.nc + k) 0).toNat + ((ds.getD r []).getD k 0).toNat) % v.cfg.p) ∧
        u.toNat = (∑ k ∈ Finset.range v.cfg.nc, ((v.cfg.mds.getD i []).getD k 0).toNat * a k) % v.cfg.p ∧
        w.toNat = (∑ k ∈ Finset.range v.cfg.nc, ((v.cfg.mds.getD i []).getD k 0).toNat *
          b (if yPre = .copyLastFromFirst ∧ k = v.cfg.nc - 1 then 0 else k)) % v.cfg.p ∧
        (flystelRound v.cfg beta delta cs ds yPre x r).getD i 0 = (flystelColumn v.cfg beta delta u w).1 ∧
        (flystelRound v.cfg beta delta cs ds yPre x r).getD (v.cfg.nc + i) 0 = (flystelColumn v.cfg beta delta u w).2

/-- R107, 90_conflicts.md C8: with the copy of `y[0]` over `y[last]` and at least two columns, `permute` does not depend on
the last element of its input. -/
def Obligations.CopyMakesPermuteForgetItsLastInput : Prop :=
  ∀ (v : Variant) (beta delta : Word) (cs ds : Table) (x : List Word) (e : Word),
    v.cfg.family = .flystel beta delta cs ds .copyLastFromFirst → 2 ≤ v.cfg.nc → x.length = v.cfg.sw →
      permute v.cfg (x.set (v.cfg.sw - 1) e) = permute v.cfg x
end

