-- ==== Sys2Proof/Laws/Bytes.lean ====
section
/-! SUPPORT. Little-endian byte strings: their length, their value, and the two round trips (R41, R90). -/

namespace Sys2Proof

@[simp] theorem leBytes_length (k n : Nat) : (leBytes k n).length = k := by
  induction k generalizing n with
  | zero => rfl
  | succ k ih => simp [leBytes, ih]

theorem leNat_lt (b : List Byte) : leNat b < 256 ^ b.length := by
  induction b with
  | nil => simp [leNat]
  | cons x xs ih =>
    have := x.isLt
    simp only [leNat, List.length_cons, pow_succ]
    omega

theorem leNat_leBytes (k n : Nat) : leNat (leBytes k n) = n % 256 ^ k := by
  induction k generalizing n with
  | zero => simp [leBytes, leNat, Nat.mod_one]
  | succ k ih =>
    have h : (BitVec.ofNat 8 (n % 256)).toNat = n % 256 := by simp
    rw [leBytes, leNat, ih, h, pow_succ, mul_comm (256 ^ k) 256, Nat.mod_mul]

theorem leBytes_leNat (b : List Byte) : leBytes b.length (leNat b) = b := by
  induction b with
  | nil => rfl
  | cons x xs ih =>
    have hx := x.isLt
    have h1 : (x.toNat + 256 * leNat xs) % 256 = x.toNat := by omega
    have h2 : (x.toNat + 256 * leNat xs) / 256 = leNat xs := by omega
    simp [leBytes, leNat, h1, h2, ih]

theorem leNat_append (a b : List Byte) : leNat (a ++ b) = leNat a + 256 ^ a.length * leNat b := by
  induction a with
  | nil => simp [leNat]
  | cons x xs ih => simp only [List.cons_append, leNat, ih, List.length_cons, pow_succ]; ring

@[simp] theorem leNat_replicate_zero (n : Nat) : leNat (List.replicate n 0#8) = 0 := by
  induction n with
  | zero => rfl
  | succ n ih => simp [List.replicate_succ, leNat, ih]

@[simp] theorem toLe64_length (n : Nat) : (toLe64 n).length = 8 := leBytes_length 8 n

theorem le64_lt {b : List Byte} (h : b.length = 8) : le64 b < 2 ^ 64 := by
  have := leNat_lt b
  rw [h] at this
  exact this

theorem le64_toLe64 {n : Nat} (h : n < 2 ^ 64) : le64 (toLe64 n) = n := by
  rw [le64, toLe64, leNat_leBytes]; exact Nat.mod_eq_of_lt h

theorem toLe64_le64 {b : List Byte} (h : b.length = 8) : toLe64 (le64 b) = b := by
  have := leBytes_leNat b
  rwa [h] at this

theorem toLe64_inj {m n : Nat} (hm : m < 2 ^ 64) (hn : n < 2 ^ 64) (h : toLe64 m = toLe64 n) : m = n := by
  rw [← le64_toLe64 hm, ← le64_toLe64 hn, h]

end Sys2Proof
end

