-- ==== Sys2Proof/Laws/Field.lean ====
section
/-! SUPPORT. What each field operation answers as an integer (R80 to R87): one lemma per operation. -/

namespace Sys2Proof

theorem canonicalAll_iff {p : Nat} {xs : List Word} :
    canonicalAll p xs = true ↔ ∀ v ∈ xs, v.toNat < p := by
  simp [canonicalAll]

@[simp] theorem canonicalAll_nil (p : Nat) : canonicalAll p [] = true := rfl

@[simp] theorem canonicalAll_cons (p : Nat) (v : Word) (xs : List Word) :
    canonicalAll p (v :: xs) = true ↔ v.toNat < p ∧ canonicalAll p xs = true := by
  simp [canonicalAll]

@[simp] theorem canonicalAll_append (p : Nat) (xs ys : List Word) :
    canonicalAll p (xs ++ ys) = true ↔ canonicalAll p xs = true ∧ canonicalAll p ys = true := by
  simp [canonicalAll]

theorem Cfg.WellFormed.p_pos {c : Cfg} (h : c.WellFormed) : 0 < c.p := h.prime.pos

theorem Cfg.WellFormed.one_lt_p {c : Cfg} (h : c.WellFormed) : 1 < c.p := h.prime.one_lt

theorem Variant.rw_lt_two_pow (v : Variant) : v.cfg.rw < 2 ^ 64 := by
  have := v.fits
  have := v.wf.rw_lt
  omega

theorem canonicalAll_replicate_zero {c : Cfg} (h : c.WellFormed) (n : Nat) :
    canonicalAll c.p (List.replicate n 0) = true := by
  rw [canonicalAll_iff]
  intro v hv
  rw [(List.mem_replicate.1 hv).2]
  exact h.p_pos

namespace Machine

variable {c : Cfg} (h : c.WellFormed)
include h

/-- `fofNat` holds `n mod P`. -/
theorem fofNat_toNat (n : Nat) : (fofNat c n).toNat = n % c.p := by
  have h1 := Nat.mod_lt n h.p_pos
  have h2 := h.p_lt
  rw [fofNat, BitVec.toNat_ofNat]
  exact Nat.mod_eq_of_lt (by omega)

theorem fofNat_lt (n : Nat) : (fofNat c n).toNat < c.p := by
  rw [fofNat_toNat h]; exact Nat.mod_lt n h.p_pos

theorem fadd_toNat (a b : Word) : (fadd c a b).toNat = (a.toNat + b.toNat) % c.p := fofNat_toNat h _

theorem fadd_lt (a b : Word) : (fadd c a b).toNat < c.p := fofNat_lt h _

theorem fmul_toNat (a b : Word) : (fmul c a b).toNat = a.toNat * b.toNat % c.p := fofNat_toNat h _

theorem fmul_lt (a b : Word) : (fmul c a b).toNat < c.p := fofNat_lt h _

/-- `fsub` is the non-negative remainder of the exact difference. -/
theorem fsub_toNat (a b : Word) :
    (((fsub c a b).toNat : Nat) : Int) = ((a.toNat : Int) - b.toNat) % (c.p : Int) := by
  have hp : (0 : Int) < c.p := by exact_mod_cast h.p_pos
  have h0 := Int.emod_nonneg ((a.toNat : Int) - b.toNat) hp.ne'
  have h1 := Int.emod_lt_of_pos ((a.toNat : Int) - b.toNat) hp
  have h2 := h.p_lt
  rw [fsub, BitVec.toNat_ofNat, Nat.mod_eq_of_lt (by omega)]
  omega

theorem fsub_lt (a b : Word) : (fsub c a b).toNat < c.p := by
  have hp : (0 : Int) < c.p := by exact_mod_cast h.p_pos
  have h1 := Int.emod_lt_of_pos ((a.toNat : Int) - b.toNat) hp
  rw [← fsub_toNat h] at h1
  exact_mod_cast h1

/-- A canonical element plus zero is itself (R81). -/
theorem fadd_zero {a : Word} (ha : a.toNat < c.p) : fadd c a 0 = a := by
  apply BitVec.eq_of_toNat_eq
  rw [fadd_toNat h]
  simpa using Nat.mod_eq_of_lt ha

theorem zero_fadd {a : Word} (ha : a.toNat < c.p) : fadd c 0 a = a := by
  apply BitVec.eq_of_toNat_eq
  rw [fadd_toNat h]
  simpa using Nat.mod_eq_of_lt ha

theorem fpowBits_toNat (a : Word) : ∀ k e, e < 2 ^ k → (fpowBits c a k e).toNat = a.toNat ^ e % c.p
  | 0, e, he => by
    have h0 : e = 0 := by simpa using he
    subst h0
    simp [fpowBits, fone, Nat.mod_eq_of_lt h.one_lt_p]
  | k + 1, e, he => by
    have ih := fpowBits_toNat a k (e / 2) (by omega)
    have hp : a.toNat ^ e = a.toNat ^ (e / 2) * a.toNat ^ (e / 2) * a.toNat ^ (e % 2) := by
      rw [← pow_add, ← pow_add]; congr 1; omega
    rw [fpowBits, hp]
    rcases Nat.mod_two_eq_zero_or_one e with h0 | h0
    · rw [h0, if_neg (by decide), fsq, fmul_toNat h, ih, pow_zero, mul_one, ← Nat.mul_mod]
    · rw [h0, if_pos rfl, fsq, fmul_toNat h, fmul_toNat h, ih, pow_one, ← Nat.mul_mod, Nat.mod_mul_mod]

/-- `fpow(a, e)` is the power reduced modulo `P` (R86). -/
theorem fpow_toNat (a : Word) (e : Nat) : (fpow c a e).toNat = a.toNat ^ e % c.p :=
  fpowBits_toNat h a _ e Nat.lt_log2_self

theorem fpow_lt (a : Word) (e : Nat) : (fpow c a e).toNat < c.p := by
  rw [fpow_toNat h]; exact Nat.mod_lt _ h.p_pos

theorem sbox_lt (a : Word) : (sbox c a).toNat < c.p := fpow_lt h a _

theorem finvSbox_lt (a : Word) : (finvSbox c a).toNat < c.p := fpow_lt h a _

/-- The inverse S-box of 0 is 0 (R87). -/
theorem finvSbox_zero : finvSbox c 0 = 0 := by
  apply BitVec.eq_of_toNat_eq
  rw [finvSbox, fpow_toNat h]
  simp [Nat.pos_iff_ne_zero.1 h.alphaInv_pos]

theorem sbox_zero : sbox c 0 = 0 := by
  apply BitVec.eq_of_toNat_eq
  rw [sbox, fpow_toNat h]
  have := h.alpha_pos
  simp [show c.alpha ≠ 0 by omega]

end Machine

end Sys2Proof
end

