-- ==== Sys2Proof/Laws/Codec.lean ====
section
/-! SUPPORT. The element codec, the element operands of a payload and the chunks of a byte input (R65, R89 to R92,
R122). -/

namespace Sys2Proof.Machine

@[simp] theorem enc8_length (a : Word) : (enc8 a).length = 8 := leBytes_length 8 _

theorem enc8_eq_toLe64 (a : Word) : enc8 a = toLe64 a.toNat := rfl

theorem le64_enc8 (a : Word) : le64 (enc8 a) = a.toNat := le64_toLe64 a.isLt

theorem dec8_isSome_iff (c : Cfg) (b : List Byte) : (dec8 c b).isSome = true ↔ le64 b < c.p := by
  unfold dec8; split <;> simp_all

theorem dec8_eq_none_iff (c : Cfg) (b : List Byte) : dec8 c b = none ↔ c.p ≤ le64 b := by
  unfold dec8; split <;> simp_all

theorem dec8_enc8' {c : Cfg} {a : Word} (ha : a.toNat < c.p) : dec8 c (enc8 a) = some a := by
  rw [dec8, le64_enc8, if_pos ha, BitVec.ofNat_toNat, BitVec.setWidth_eq]

/-- A decoded element is canonical and is the integer its bytes spell. -/
theorem dec8_some {c : Cfg} (h : c.WellFormed) {b : List Byte} {a : Word} (hb : dec8 c b = some a) :
    a.toNat = le64 b ∧ a.toNat < c.p := by
  unfold dec8 at hb
  split at hb
  · next hlt =>
    cases hb
    have := h.p_lt
    have hm : le64 b % 2 ^ 64 = le64 b := Nat.mod_eq_of_lt (by omega)
    rw [BitVec.toNat_ofNat, hm]
    exact ⟨rfl, hlt⟩
  · cases hb

@[simp] theorem encElems_nil : encElems [] = [] := rfl

@[simp] theorem encElems_cons (a : Word) (xs : List Word) : encElems (a :: xs) = enc8 a ++ encElems xs := rfl

@[simp] theorem encElems_append (xs ys : List Word) : encElems (xs ++ ys) = encElems xs ++ encElems ys :=
  List.flatMap_append

@[simp] theorem encElems_length (xs : List Word) : (encElems xs).length = 8 * xs.length := by
  induction xs with
  | nil => rfl
  | cons x xs ih => simp [ih]; omega

/-! ## Element operands -/

theorem elemGroups_zero (b : List Byte) : elemGroups b 0 = [] := rfl

/-- The groups of a payload whose first 8 bytes are `a`. -/
theorem elemGroups_append (a b : List Byte) (n : Nat) (ha : a.length = 8) :
    elemGroups (a ++ b) (n + 1) = a :: elemGroups b n := by
  have h0 : memRead (a ++ b) 0 8 = a := by simp [memRead, ← ha]
  have hs : ∀ k, memRead (a ++ b) (8 * (k + 1)) 8 = memRead b (8 * k) 8 := by
    intro k
    rw [memRead, memRead, show 8 * (k + 1) = a.length + 8 * k by omega, List.drop_append,
      List.drop_eq_nil_of_le (by omega)]
    simp
  simp only [elemGroups, List.range_succ_eq_map, List.map_cons, List.map_map, mul_zero, h0]
  congr 1
  apply List.map_congr_left
  intro k _
  exact hs k

/-- The operands of a payload that starts with an element's encoding. -/
theorem elemOperands_cons (c : Cfg) {a : Word} (ha : a.toNat < c.p) (b : List Byte) (n : Nat) :
    elemOperands c (enc8 a ++ b) (n + 1) = (elemOperands c b n).map (a :: ·) := by
  rw [elemOperands, elemGroups_append _ _ _ (enc8_length a), decodeAll, dec8_enc8' ha, ← elemOperands]
  cases elemOperands c b n <;> rfl

/-- Encoded canonical elements are read back, whatever follows them in the payload (R47, R65, R91). -/
theorem elemOperands_encElems (c : Cfg) (xs : List Word) (b : List Byte) (hx : canonicalAll c.p xs = true) :
    elemOperands c (encElems xs ++ b) xs.length = some xs := by
  induction xs with
  | nil => rfl
  | cons a xs ih =>
    rw [canonicalAll_cons] at hx
    rw [encElems_cons, List.append_assoc, List.length_cons, elemOperands_cons c hx.1, ih hx.2]
    rfl

theorem elemOperands_encElems' (c : Cfg) (xs : List Word) (hx : canonicalAll c.p xs = true) :
    elemOperands c (encElems xs) xs.length = some xs := by
  simpa using elemOperands_encElems c xs [] hx

theorem decodeAll_some {c : Cfg} {gs : List (List Byte)} {vs : List Word} (hd : decodeAll c gs = some vs) :
    vs.length = gs.length ∧ ∀ k (hk : k < gs.length), dec8 c gs[k] = vs[k]? := by
  induction gs generalizing vs with
  | nil => cases hd; simp
  | cons g gs ih =>
    rw [decodeAll] at hd
    split at hd
    · next v vs' h1 h2 =>
      cases hd
      obtain ⟨hl, hg⟩ := ih h2
      refine ⟨by simp [hl], fun k hk => ?_⟩
      cases k with
      | zero => simpa using h1
      | succ k => simpa using hg k (by simpa using hk)
    · cases hd

theorem decodeAll_none {c : Cfg} {gs : List (List Byte)} :
    decodeAll c gs = none ↔ ∃ g ∈ gs, dec8 c g = none := by
  induction gs with
  | nil => simp [decodeAll]
  | cons g gs ih =>
    rw [decodeAll]
    split
    · next v vs h1 h2 =>
      have hn : ¬ ∃ g ∈ gs, dec8 c g = none := fun hx => by simp [ih.2 hx] at h2
      simp only [reduceCtorEq, List.mem_cons, exists_eq_or_imp, h1, false_or, false_iff]
      exact hn
    · next hne =>
      simp only [List.mem_cons, exists_eq_or_imp, true_iff]
      rcases h1 : dec8 c g with _ | v
      · exact .inl rfl
      · right
        rw [← ih]
        rcases h2 : decodeAll c gs with _ | vs
        · rfl
        · exact absurd h2 (hne v vs h1)

@[simp] theorem elemGroups_length (b : List Byte) (n : Nat) : (elemGroups b n).length = n := by
  simp [elemGroups]

/-- What the operands of a payload are, when they are: `n` canonical elements, element `k` the one group `k` spells. -/
theorem elemOperands_some {c : Cfg} (h : c.WellFormed) {b : List Byte} {n : Nat} {vs : List Word}
    (hd : elemOperands c b n = some vs) :
    vs.length = n ∧ canonicalAll c.p vs = true ∧ ∀ k < n, dec8 c (memRead b (8 * k) 8) = vs[k]? := by
  obtain ⟨hl, hg⟩ := decodeAll_some hd
  have hget : ∀ k < n, dec8 c (memRead b (8 * k) 8) = vs[k]? := fun k hk => by
    have := hg k (by simpa using hk)
    simpa [elemGroups] using this
  rw [elemGroups_length] at hl
  refine ⟨hl, ?_, hget⟩
  rw [canonicalAll_iff]
  intro v hv
  obtain ⟨k, hk, rfl⟩ := List.getElem_of_mem hv
  have hx := hget k (hl ▸ hk)
  rw [List.getElem?_eq_getElem hk] at hx
  exact (dec8_some h hx).2

/-- When they are not: some group spells an integer of `P` or more (R161). -/
theorem elemOperands_none {c : Cfg} {b : List Byte} {n : Nat} :
    elemOperands c b n = none ↔ ∃ k < n, c.p ≤ le64 (memRead b (8 * k) 8) := by
  simp only [elemOperands, decodeAll_none, elemGroups, List.mem_map, List.mem_range]
  constructor
  · rintro ⟨g, ⟨k, hk, rfl⟩, hg⟩
    exact ⟨k, hk, (dec8_eq_none_iff c _).1 hg⟩
  · rintro ⟨k, hk, hg⟩
    exact ⟨_, ⟨k, hk, rfl⟩, (dec8_eq_none_iff c _).2 hg⟩

/-! ## Chunks -/

theorem chunkBuf_length {chunk : List Byte} {last : Bool} (hc : chunk.length ≤ 7) :
    (chunkBuf chunk last).length = 8 := by
  cases last <;> simp [chunkBuf] <;> omega

/-- The integer a chunk's buffer spells: its bytes, and the marker's weight when it is the last (R92). -/
theorem le64_chunkBuf (chunk : List Byte) (last : Bool) :
    le64 (chunkBuf chunk last) = leNat chunk + if last then 256 ^ chunk.length else 0 := by
  cases last <;> simp [chunkBuf, le64, leNat_append, leNat]

/-- The decoding of a chunk cannot fail (R92). -/
theorem dec8_chunkBuf {c : Cfg} (h : c.WellFormed) {chunk : List Byte} {last : Bool} (hc : chunk.length ≤ 7) :
    dec8 c (chunkBuf chunk last) = some (chunkToField c chunk last) := by
  have h1 := leNat_lt chunk
  have h2 : (256 : Nat) ^ chunk.length ≤ 256 ^ 7 := Nat.pow_le_pow_right (by norm_num) hc
  have h3 := h.p_ge
  have hlt : le64 (chunkBuf chunk last) < c.p := by
    rw [le64_chunkBuf]
    cases last <;> simp <;> omega
  obtain ⟨v, hv⟩ := Option.isSome_iff_exists.1 ((dec8_isSome_iff c _).2 hlt)
  rw [chunkToField, hv]; rfl

theorem chunkToField_lt {c : Cfg} (h : c.WellFormed) {chunk : List Byte} {last : Bool} (hc : chunk.length ≤ 7) :
    (chunkToField c chunk last).toNat < c.p := (dec8_some h (dec8_chunkBuf h hc)).2

theorem chunkAt_length_le (b : List Byte) (k : Nat) : (chunkAt b k).length ≤ 7 := by
  simp [chunkAt, memRead]; omega

@[simp] theorem byteElems_length (c : Cfg) (b : List Byte) : (byteElems c b).length = chunkCount b.length := by
  simp [byteElems]

/-- Every element a byte input absorbs is canonical (R92). -/
theorem byteElems_canonical {c : Cfg} (h : c.WellFormed) (b : List Byte) :
    canonicalAll c.p (byteElems c b) = true := by
  rw [canonicalAll_iff]
  intro v hv
  obtain ⟨k, _, rfl⟩ := List.mem_map.1 hv
  exact chunkToField_lt h (chunkAt_length_le b k)

end Sys2Proof.Machine
end

