-- ==== Sys2Proof/Laws/Decode.lean ====
section
/-! SUPPORT. The decoder on a frame (R61, R65, R67). -/

namespace Sys2Proof

@[simp] theorem commandFrame_length (op : Byte) (payload : List Byte) :
    (commandFrame op payload).length = 9 + payload.length := by
  simp [commandFrame]; omega

/-- What the decoder does with a whole frame at the head of the received bytes, whatever its opcode. -/
theorem decode_commandFrame (op : Byte) (payload rest : List Byte) (h : payload.length < 2 ^ 64) :
    decode (commandFrame op payload ++ rest) =
      match instrOf op payload with
      | some i => .instr i rest
      | none => .reserved op rest := by
  have h8 : (toLe64 payload.length ++ payload ++ rest).take 8 = toLe64 payload.length := by simp [List.append_assoc]
  have hd : (toLe64 payload.length ++ payload ++ rest).drop 8 = payload ++ rest := by simp [List.append_assoc]
  have hl : ¬ (toLe64 payload.length ++ payload ++ rest).length < 8 := by simp
  have hl2 : ¬ (payload ++ rest).length < payload.length := by simp
  rcases hi : instrOf op payload with _ | i <;>
    simp only [commandFrame, List.cons_append, decode, h8, hd, hl, le64_toLe64 h, hl2, if_false,
      List.take_left, List.drop_left, hi]

/-- The other direction: whole frames are the only bytes the decoder takes, and it drops none of them. -/
theorem decode_split {bytes : List Byte} (h : decode bytes ≠ .incomplete) :
    ∃ op payload rest, bytes = commandFrame op payload ++ rest ∧ payload.length < 2 ^ 64 := by
  match bytes with
  | [] => simp [decode] at h
  | op :: t =>
    by_cases h1 : t.length < 8
    · simp [decode, h1] at h
    by_cases h2 : (t.drop 8).length < le64 (t.take 8)
    · simp only [decode, h1, h2, if_false, if_true, ne_eq, not_true_eq_false] at h
    have h8 : (t.take 8).length = 8 := by simp; omega
    have hn : ((t.drop 8).take (le64 (t.take 8))).length = le64 (t.take 8) := by
      rw [List.length_take]; omega
    refine ⟨op, (t.drop 8).take (le64 (t.take 8)), (t.drop 8).drop (le64 (t.take 8)), ?_, ?_⟩
    · rw [commandFrame, hn, toLe64_le64 h8]
      simp [List.append_assoc]
    · rw [hn]; exact le64_lt h8

/-- The opcode map sends a command's own opcode back to it. -/
theorem instrOf_opcodeOf (i : Instr) : instrOf (opcodeOf i) i.payload = some i := by
  cases i <;> rfl

theorem opcodeOf_of_instrOf {op : Byte} {payload : List Byte} {i : Instr} (h : instrOf op payload = some i) :
    op = opcodeOf i ∧ i.payload = payload := by
  unfold instrOf at h
  split at h <;> first | (cases h; exact ⟨rfl, rfl⟩) | cases h

end Sys2Proof
end

