-- ==== Sys2Proof/Laws/Permutation.lean ====
section
/-! SUPPORT. The permutation and its layers keep an array's length and its canonical form (R21, R100, R112). -/

namespace Sys2Proof.Machine

theorem Table_fits_iff {p rows cols : Nat} {t : Table} :
    Table.fits p rows cols t = true ↔
      t.length = rows ∧ ∀ row ∈ t, row.length = cols ∧ canonicalAll p row = true := by
  simp [Table.fits]

variable {c : Cfg}

@[simp] theorem mdsMul_length (m : Table) (v : List Word) : (mdsMul c m v).length = m.length := by simp [mdsMul]

theorem mdsMul_canonical (h : c.WellFormed) (m : Table) (v : List Word) : canonicalAll c.p (mdsMul c m v) = true := by
  rw [canonicalAll_iff]
  intro w hw
  obtain ⟨row, _, rfl⟩ := List.mem_map.1 hw
  exact fofNat_lt h _

theorem addConsts_length (xs ks : List Word) : (addConsts c xs ks).length = min xs.length ks.length := by
  simp [addConsts]

theorem addConsts_canonical (h : c.WellFormed) (xs ks : List Word) : canonicalAll c.p (addConsts c xs ks) = true := by
  rw [canonicalAll_iff]
  intro w hw
  obtain ⟨a, b, rfl⟩ : ∃ a b, fadd c a b = w := by
    simp only [addConsts, List.mem_iff_getElem, List.getElem_zipWith] at hw
    obtain ⟨i, _, hi⟩ := hw
    exact ⟨_, _, hi⟩
  exact fadd_lt h a b

/-- A row of a table of the right shape. -/
theorem roundRow_length {p rows cols : Nat} {t : Table} (ht : Table.fits p rows cols t = true) {r : Nat} (hr : r < rows) :
    (roundRow t r).length = cols := by
  rw [Table_fits_iff] at ht
  have hr' : r < t.length := by omega
  rw [roundRow, List.getD_eq_getElem _ _ hr']
  exact (ht.2 _ (List.getElem_mem hr')).1

theorem mds_length (h : c.WellFormed) : c.mds.length = c.mdsSide := (Table_fits_iff.1 h.mds_fits).1

/-! ## The rescue family -/

section Rescue

variable {rc1 rc2 : Table} (h : c.WellFormed) (hf : c.family = .rescue rc1 rc2)
include h hf

theorem rescue_side : c.mds.length = c.sw := by rw [mds_length h, Cfg.mdsSide, hf]

theorem rescue_tables : Table.fits c.p c.nr c.sw rc1 = true ∧ Table.fits c.p c.nr c.sw rc2 = true := by
  have := h.family_fits
  rw [Cfg.familyFits, hf] at this
  simpa using this

theorem rescueRound_keeps (x : List Word) {r : Nat} (hr : r < c.nr) :
    (rescueRound c rc1 rc2 x r).length = c.sw ∧ canonicalAll c.p (rescueRound c rc1 rc2 x r) = true := by
  refine ⟨?_, addConsts_canonical h _ _⟩
  simp only [rescueRound, addConsts_length, mdsMul_length, rescue_side h hf,
    roundRow_length (rescue_tables h hf).2 hr, min_self]

theorem permuteRescue_keeps {x : List Word} (hx : x.length = c.sw) (hc : canonicalAll c.p x = true) :
    (permuteRescue c rc1 rc2 x).length = c.sw ∧ canonicalAll c.p (permuteRescue c rc1 rc2 x) = true := by
  have key : ∀ l : List Nat, (∀ r ∈ l, r < c.nr) → ∀ y : List Word, y.length = c.sw → canonicalAll c.p y = true →
      (l.foldl (rescueRound c rc1 rc2) y).length = c.sw ∧
        canonicalAll c.p (l.foldl (rescueRound c rc1 rc2) y) = true := by
    intro l
    induction l with
    | nil => intro _ y hy hcy; exact ⟨hy, hcy⟩
    | cons r l ih =>
      intro hl y _ _
      obtain ⟨h1, h2⟩ := rescueRound_keeps h hf y (hl r (by simp))
      exact ih (fun r' hr' => hl r' (by simp [hr'])) _ h1 h2
  exact key _ (fun r hr => List.mem_range.1 hr) x hx hc

end Rescue

/-! ## The flystel family -/

section Flystel

variable {beta delta : Word} {cs ds : Table} {yPre : YPre} (h : c.WellFormed)
  (hf : c.family = .flystel beta delta cs ds yPre)
include h hf

theorem flystel_side : c.mds.length = c.nc := by rw [mds_length h, Cfg.mdsSide, hf]

theorem flystel_even : c.nc + c.nc = c.sw := by
  have := h.family_fits
  rw [Cfg.familyFits, hf] at this
  simp only [Bool.and_eq_true, beq_iff_eq] at this
  simp only [Cfg.nc]
  omega

theorem flystel_constants : beta.toNat < c.p ∧ delta.toNat < c.p := by
  have := h.family_fits
  rw [Cfg.familyFits, hf] at this
  simp only [Bool.and_eq_true, canonicalAll_cons, canonicalAll_nil, and_true] at this
  exact this.1.1.2

theorem flystel_tables : Table.fits c.p c.nr c.nc cs = true ∧ Table.fits c.p c.nr c.nc ds = true := by
  have := h.family_fits
  rw [Cfg.familyFits, hf] at this
  simp only [Bool.and_eq_true] at this
  exact ⟨this.1.2, this.2⟩

theorem diffuse_keeps (xy : List Word × List Word) :
    (diffuse c yPre xy).1.length = c.nc ∧ (diffuse c yPre xy).2.length = c.nc ∧
      canonicalAll c.p (diffuse c yPre xy).1 = true ∧ canonicalAll c.p (diffuse c yPre xy).2 = true := by
  simp only [diffuse, mdsMul_length, flystel_side h hf, mdsMul_canonical h, and_self]

omit hf in
theorem flystelColumn_lt (x y : Word) :
    (flystelColumn c beta delta x y).1.toNat < c.p ∧ (flystelColumn c beta delta x y).2.toNat < c.p :=
  ⟨fadd_lt h _ _, fsub_lt h _ _⟩

omit hf in
theorem flystelSbox_keeps (xy : List Word × List Word) (h1 : xy.1.length = c.nc) (h2 : xy.2.length = c.nc) :
    (flystelSbox c beta delta xy).1.length = c.nc ∧ (flystelSbox c beta delta xy).2.length = c.nc ∧
      canonicalAll c.p (flystelSbox c beta delta xy).1 = true ∧
        canonicalAll c.p (flystelSbox c beta delta xy).2 = true := by
  have hmem : ∀ q ∈ List.zipWith (flystelColumn c beta delta) xy.1 xy.2, q.1.toNat < c.p ∧ q.2.toNat < c.p := by
    intro q hq
    simp only [List.mem_iff_getElem, List.getElem_zipWith] at hq
    obtain ⟨i, _, rfl⟩ := hq
    exact flystelColumn_lt h _ _
  refine ⟨by simp [flystelSbox, h1, h2], by simp [flystelSbox, h1, h2], ?_, ?_⟩ <;>
  · rw [canonicalAll_iff]
    intro w hw
    obtain ⟨q, hq, rfl⟩ := List.mem_map.1 hw
    first | exact (hmem q hq).1 | exact (hmem q hq).2

theorem flystelRound_keeps (x : List Word) (r : Nat) :
    (flystelRound c beta delta cs ds yPre x r).length = c.sw ∧
      canonicalAll c.p (flystelRound c beta delta cs ds yPre x r) = true := by
  obtain ⟨d1, d2, _, _⟩ := diffuse_keeps h hf
    (addConsts c (halves c x).1 (roundRow cs r), addConsts c (halves c x).2 (roundRow ds r))
  obtain ⟨s1, s2, s3, s4⟩ := flystelSbox_keeps (beta := beta) (delta := delta) h _ d1 d2
  have := flystel_even h hf
  simp only [flystelRound, joinHalves, List.length_append, canonicalAll_append]
  exact ⟨by omega, s3, s4⟩

theorem permuteFlystel_keeps (x : List Word) :
    (permuteFlystel c beta delta cs ds yPre x).length = c.sw ∧
      canonicalAll c.p (permuteFlystel c beta delta cs ds yPre x) = true := by
  obtain ⟨d1, d2, d3, d4⟩ := diffuse_keeps h hf
    (halves c ((List.range c.nr).foldl (flystelRound c beta delta cs ds yPre) x))
  have := flystel_even h hf
  simp only [permuteFlystel, joinHalves, List.length_append, canonicalAll_append]
  exact ⟨by omega, d3, d4⟩

end Flystel

/-- `permute` keeps the array's length and its canonical form. -/
theorem permute_ok (h : c.WellFormed) {x : List Word} (hx : x.length = c.sw) (hc : canonicalAll c.p x = true) :
    (permute c x).length = c.sw ∧ canonicalAll c.p (permute c x) = true := by
  rcases hf : c.family with ⟨rc1, rc2⟩ | ⟨beta, delta, cs, ds, yPre⟩
  · rw [permute, hf]; exact permuteRescue_keeps h hf hx hc
  · rw [permute, hf]; exact permuteFlystel_keeps h hf x

end Sys2Proof.Machine
end

