-- ==== Sys2Proof/Laws/State.lean ====
section
/-! SUPPORT. What each named update does to each field, and the fields of the reset states: one lemma per field per
update, true by rfl. -/

namespace Sys2Proof.Machine

variable (s : State) (sp : Sponge) (x : List Word) (k : Word) (b : List Byte) (st : Status) (v : Variant)

@[simp] theorem setContext_variant : (s.setContext sp).variant = s.variant := rfl
@[simp] theorem setContext_S : (s.setContext sp).S = sp.X := rfl
@[simp] theorem setContext_IDX : (s.setContext sp).IDX = sp.k := rfl
@[simp] theorem setContext_T : (s.setContext sp).T = s.T := rfl
@[simp] theorem setContext_scratchUses : (s.setContext sp).scratchUses = s.scratchUses := rfl
@[simp] theorem setContext_j : (s.setContext sp).j = s.j := rfl
@[simp] theorem setContext_rx : (s.setContext sp).rx = s.rx := rfl
@[simp] theorem setContext_tx : (s.setContext sp).tx = s.tx := rfl

@[simp] theorem leaveScratch_variant : s.leaveScratch.variant = s.variant := rfl
@[simp] theorem leaveScratch_S : s.leaveScratch.S = s.S := rfl
@[simp] theorem leaveScratch_IDX : s.leaveScratch.IDX = s.IDX := rfl
@[simp] theorem leaveScratch_T :
    s.leaveScratch.T = (List.range s.cfg.sw).map (Config.scratchRegister s.scratchUses) := rfl
@[simp] theorem leaveScratch_j : s.leaveScratch.j = Config.scratchCursor s.scratchUses := rfl
@[simp] theorem leaveScratch_scratchUses : s.leaveScratch.scratchUses = s.scratchUses + 1 := rfl
@[simp] theorem leaveScratch_rx : s.leaveScratch.rx = s.rx := rfl
@[simp] theorem leaveScratch_tx : s.leaveScratch.tx = s.tx := rfl
@[simp] theorem leaveScratch_context : s.leaveScratch.context = s.context := rfl

@[simp] theorem setRx_variant : (s.setRx b).variant = s.variant := rfl
@[simp] theorem setRx_S : (s.setRx b).S = s.S := rfl
@[simp] theorem setRx_IDX : (s.setRx b).IDX = s.IDX := rfl
@[simp] theorem setRx_T : (s.setRx b).T = s.T := rfl
@[simp] theorem setRx_scratchUses : (s.setRx b).scratchUses = s.scratchUses := rfl
@[simp] theorem setRx_j : (s.setRx b).j = s.j := rfl
@[simp] theorem setRx_rx : (s.setRx b).rx = b := rfl
@[simp] theorem setRx_tx : (s.setRx b).tx = s.tx := rfl

@[simp] theorem send_variant : (s.send b).variant = s.variant := rfl
@[simp] theorem send_S : (s.send b).S = s.S := rfl
@[simp] theorem send_IDX : (s.send b).IDX = s.IDX := rfl
@[simp] theorem send_T : (s.send b).T = s.T := rfl
@[simp] theorem send_scratchUses : (s.send b).scratchUses = s.scratchUses := rfl
@[simp] theorem send_j : (s.send b).j = s.j := rfl
@[simp] theorem send_rx : (s.send b).rx = s.rx := rfl
@[simp] theorem send_tx : (s.send b).tx = s.tx ++ b := rfl

theorem respond_eq_send : respond b s = s.send (responseFrame .ok b) := rfl
@[simp] theorem respond_variant : (respond b s).variant = s.variant := rfl
@[simp] theorem respond_S : (respond b s).S = s.S := rfl
@[simp] theorem respond_IDX : (respond b s).IDX = s.IDX := rfl
@[simp] theorem respond_T : (respond b s).T = s.T := rfl
@[simp] theorem respond_scratchUses : (respond b s).scratchUses = s.scratchUses := rfl
@[simp] theorem respond_j : (respond b s).j = s.j := rfl
@[simp] theorem respond_rx : (respond b s).rx = s.rx := rfl
@[simp] theorem respond_tx : (respond b s).tx = s.tx ++ responseFrame .ok b := rfl

theorem raise_eq_send : raise st s = s.send (responseFrame st []) := rfl
@[simp] theorem raise_variant : (raise st s).variant = s.variant := rfl
@[simp] theorem raise_S : (raise st s).S = s.S := rfl
@[simp] theorem raise_IDX : (raise st s).IDX = s.IDX := rfl
@[simp] theorem raise_T : (raise st s).T = s.T := rfl
@[simp] theorem raise_scratchUses : (raise st s).scratchUses = s.scratchUses := rfl
@[simp] theorem raise_j : (raise st s).j = s.j := rfl
@[simp] theorem raise_rx : (raise st s).rx = s.rx := rfl
@[simp] theorem raise_tx : (raise st s).tx = s.tx ++ responseFrame st [] := rfl

@[simp] theorem context_X : s.context.X = s.S := rfl
@[simp] theorem context_k : s.context.k = s.IDX := rfl
@[simp] theorem setContext_context : s.setContext s.context = s := rfl
@[simp] theorem context_setContext : (s.setContext sp).context = sp := rfl
@[simp] theorem context_setRx : (s.setRx b).context = s.context := rfl
@[simp] theorem context_send : (s.send b).context = s.context := rfl

@[simp] theorem hostSend_variant : (s.hostSend b).variant = s.variant := rfl
@[simp] theorem hostSend_S : (s.hostSend b).S = s.S := rfl
@[simp] theorem hostSend_IDX : (s.hostSend b).IDX = s.IDX := rfl
@[simp] theorem hostSend_T : (s.hostSend b).T = s.T := rfl
@[simp] theorem hostSend_scratchUses : (s.hostSend b).scratchUses = s.scratchUses := rfl
@[simp] theorem hostSend_j : (s.hostSend b).j = s.j := rfl
@[simp] theorem hostSend_rx : (s.hostSend b).rx = s.rx ++ b := rfl
@[simp] theorem hostSend_tx : (s.hostSend b).tx = s.tx := rfl

@[simp] theorem resetOf_variant : (State.resetOf v).variant = v := rfl
@[simp] theorem resetOf_S : (State.resetOf v).S = List.replicate v.cfg.sw 0 := rfl
@[simp] theorem resetOf_IDX : (State.resetOf v).IDX = 0 := rfl
@[simp] theorem resetOf_rx : (State.resetOf v).rx = [] := rfl
@[simp] theorem resetOf_tx : (State.resetOf v).tx = [] := rfl

@[simp] theorem hardReset_variant : s.hardReset.variant = s.variant := rfl
@[simp] theorem hardReset_S : s.hardReset.S = List.replicate s.cfg.sw 0 := rfl
@[simp] theorem hardReset_IDX : s.hardReset.IDX = 0 := rfl
@[simp] theorem hardReset_rx : s.hardReset.rx = [] := rfl
@[simp] theorem hardReset_tx : s.hardReset.tx = s.tx := rfl
@[simp] theorem hardReset_scratchUses : s.hardReset.scratchUses = s.scratchUses + 1 := rfl

end Sys2Proof.Machine
end

