-- ==== Sys2Proof/Laws/Ops.lean ====
section
/-! SUPPORT. What each sponge step can do (R121, R125), and that it keeps a good array and cursor; the shape of a
response (R63). -/

namespace Sys2Proof.Machine

variable {c : Cfg}

/-! ## absorb_elem -/

/-- R121 while the block is not full: the element is added at the cursor, and the cursor advances. -/
theorem absorbElem_of_lt {sp : Sponge} {e : Word} (hrw : c.rw < 2 ^ 64) (hk : sp.k.toNat + 1 < c.rw) :
    absorbElem c sp e = ⟨sp.X.set sp.k.toNat (fadd c (sp.X.getD sp.k.toNat 0) e), sp.k + 1⟩ := by
  have h1 : (sp.k + 1).toNat = sp.k.toNat + 1 := by
    rw [BitVec.toNat_add]
    exact Nat.mod_eq_of_lt (by simp; omega)
  simp only [absorbElem]
  rw [if_neg (by omega)]

/-- R121 when the element fills the block: the permutation runs and the cursor is 0. -/
theorem absorbElem_of_eq {sp : Sponge} {e : Word} (hrw : c.rw < 2 ^ 64) (hk : sp.k.toNat + 1 = c.rw) :
    absorbElem c sp e = ⟨permute c (sp.X.set sp.k.toNat (fadd c (sp.X.getD sp.k.toNat 0) e)), 0⟩ := by
  have h1 : (sp.k + 1).toNat = sp.k.toNat + 1 := by
    rw [BitVec.toNat_add]
    exact Nat.mod_eq_of_lt (by simp; omega)
  simp only [absorbElem]
  rw [if_pos (by omega)]

theorem canonicalAll_set {p : Nat} {xs : List Word} {w : Word} (k : Nat) (hx : canonicalAll p xs = true)
    (hw : w.toNat < p) : canonicalAll p (xs.set k w) = true := by
  rw [canonicalAll_iff] at *
  intro v hv
  rcases List.mem_or_eq_of_mem_set hv with h | h
  · exact hx v h
  · rw [h]; exact hw

/-- `absorb_elem` keeps a good array and cursor: on exit `0 <= k < RW` again (R121). -/
theorem absorbElem_ok (v : Variant) {sp : Sponge} (e : Word) (hs : sp.Ok v.cfg) : (absorbElem v.cfg sp e).Ok v.cfg := by
  obtain ⟨hl, hc, hk⟩ := hs
  have hset : canonicalAll v.cfg.p (sp.X.set sp.k.toNat (fadd v.cfg (sp.X.getD sp.k.toNat 0) e)) = true :=
    canonicalAll_set _ hc (fadd_lt v.wf _ _)
  have hlen : (sp.X.set sp.k.toNat (fadd v.cfg (sp.X.getD sp.k.toNat 0) e)).length = v.cfg.sw := by simpa using hl
  rcases Nat.lt_or_eq_of_le (show sp.k.toNat + 1 ≤ v.cfg.rw by omega) with h | h
  · rw [absorbElem_of_lt v.rw_lt_two_pow h]
    have := v.rw_lt_two_pow
    refine ⟨hlen, hset, ?_⟩
    show (sp.k + 1).toNat < v.cfg.rw
    rw [BitVec.toNat_add, Nat.mod_eq_of_lt (by simp; omega)]
    simpa using h
  · rw [absorbElem_of_eq v.rw_lt_two_pow h]
    obtain ⟨h1, h2⟩ := permute_ok v.wf hlen hset
    exact ⟨h1, h2, v.wf.rw_pos⟩

/-! ## Absorbing a list -/

@[simp] theorem absorbAll_nil (c : Cfg) (sp : Sponge) : absorbAll c sp [] = sp := rfl

@[simp] theorem absorbAll_cons (c : Cfg) (sp : Sponge) (e : Word) (es : List Word) :
    absorbAll c sp (e :: es) = absorbAll c (absorbElem c sp e) es := rfl

/-- Absorbing keeps nothing but the array and the cursor between elements (R129). -/
theorem absorbAll_append (c : Cfg) (sp : Sponge) (xs ys : List Word) :
    absorbAll c sp (xs ++ ys) = absorbAll c (absorbAll c sp xs) ys := by
  simp [absorbAll, List.foldl_append]

theorem absorbAll_ok (v : Variant) {sp : Sponge} (es : List Word) (hs : sp.Ok v.cfg) :
    (absorbAll v.cfg sp es).Ok v.cfg := by
  induction es generalizing sp with
  | nil => exact hs
  | cons e es ih => exact ih (absorbElem_ok v e hs)

/-! ## Closing a block, fresh arrays -/

theorem padOne_ok (v : Variant) {sp : Sponge} (hs : sp.Ok v.cfg) :
    (padOne v.cfg sp).length = v.cfg.sw ∧ canonicalAll v.cfg.p (padOne v.cfg sp) = true :=
  permute_ok v.wf (by simpa using hs.1) (canonicalAll_set _ hs.2.1 (fadd_lt v.wf _ _))

theorem finalizeContext_ok (v : Variant) {sp : Sponge} (hs : sp.Ok v.cfg) : (finalizeContext v.cfg sp).Ok v.cfg := by
  unfold finalizeContext
  split
  · exact hs
  · exact ⟨(padOne_ok v hs).1, (padOne_ok v hs).2, v.wf.rw_pos⟩

@[simp] theorem freshArray_length (c : Cfg) : (freshArray c).length = c.sw := by simp [freshArray]

theorem fresh_ok (v : Variant) : Sponge.Ok v.cfg ⟨freshArray v.cfg, 0⟩ :=
  ⟨freshArray_length _, canonicalAll_replicate_zero v.wf _, v.wf.rw_pos⟩

theorem hashStart_ok (v : Variant) (n : Nat) : (hashStart v.cfg n).Ok v.cfg :=
  ⟨by simp [hashStart], canonicalAll_set _ (canonicalAll_replicate_zero v.wf _) (fofNat_lt v.wf _), v.wf.rw_pos⟩

/-- The invariant of a state is that of its context. -/
theorem Inv_iff (s : State) : s.Inv ↔ s.context.Ok s.cfg := Iff.rfl

/-! ## Responses -/

@[simp] theorem responseFrame_length (st : Status) (p : List Byte) : (responseFrame st p).length = 9 + p.length := by
  simp [responseFrame]; omega

theorem statusByte_inj {a b : Status} (h : statusByte a = statusByte b) : a = b := by
  revert h; cases a <;> cases b <;> decide

/-- A response frame determines its status and its payload. -/
theorem responseFrame_inj {a b : Status} {p q : List Byte} (h : responseFrame a p = responseFrame b q) :
    a = b ∧ p = q := by
  simp only [responseFrame, List.cons.injEq] at h
  refine ⟨statusByte_inj h.1, ?_⟩
  exact (List.append_inj h.2 (by simp)).2

end Sys2Proof.Machine
end

