-- ==== Sys2Proof/Laws/Exec.lean ====
section
/-! SUPPORT. What each command's meaning answers, case by case: the refusals first, then the command's own effect. -/

namespace Sys2Proof.Machine

variable (s : State) (b : List Byte)

theorem execNew_legal : execNew [] s = .next (respond [] (s.setContext ⟨freshArray s.cfg, 0⟩)) := rfl

theorem execNew_illegal (h : b.length ≠ 0) : execNew b s = .next (raise .illegalCommand s) := by
  rw [execNew, if_pos h]

theorem execAbsorb_next :
    execAbsorb b s = .next (respond [] (s.setContext (absorbAll s.cfg s.context (byteElems s.cfg b)))) := rfl

theorem execAbsorbf_illegal (h : b.length % 8 ≠ 0) : execAbsorbf b s = .next (raise .illegalCommand s) := by
  rw [execAbsorbf, if_pos h]

theorem execAbsorbf_invalid (h : b.length % 8 = 0) (hd : elemOperands s.cfg b (b.length / 8) = none) :
    execAbsorbf b s = .next (raise .invalidFieldElement s) := by
  rw [execAbsorbf, if_neg (by simpa using h), hd]

theorem execAbsorbf_legal {es : List Word} (h : b.length % 8 = 0) (hd : elemOperands s.cfg b (b.length / 8) = some es) :
    execAbsorbf b s = .next (respond [] (s.setContext (absorbAll s.cfg s.context es))) := by
  rw [execAbsorbf, if_neg (by simpa using h), hd]

theorem execFinalize_legal :
    execFinalize [] s = .next (respond (squeeze s.cfg (finalizeContext s.cfg s.context).X)
      (s.setContext (finalizeContext s.cfg s.context))) := rfl

theorem execFinalize_illegal (h : b.length ≠ 0) : execFinalize b s = .next (raise .illegalCommand s) := by
  rw [execFinalize, if_pos h]

theorem execSave_legal : execSave [] s = .next (respond (persisted s.context) s) := rfl

theorem execSave_illegal (h : b.length ≠ 0) : execSave b s = .next (raise .illegalCommand s) := by
  rw [execSave, if_pos h]

theorem execRestore_illegal (h : b.length ≠ s.cfg.sw * 8 + 8) : execRestore b s = .next (raise .illegalCommand s) := by
  rw [execRestore, if_pos h]

theorem execRestore_invalid (h : b.length = s.cfg.sw * 8 + 8) (hd : elemOperands s.cfg b s.cfg.sw = none) :
    execRestore b s = .next (raise .invalidFieldElement s) := by
  rw [execRestore, if_neg (by simpa using h), hd]

theorem execRestore_badCursor {es : List Word} (h : b.length = s.cfg.sw * 8 + 8)
    (hd : elemOperands s.cfg b s.cfg.sw = some es) (hc : s.cfg.rw ≤ cursorOperand s.cfg b) :
    execRestore b s = .next (raise .badCursor s) := by
  rw [execRestore, if_neg (by simpa using h), hd]
  simp only [if_pos (show cursorOperand s.cfg b ≥ s.cfg.rw from hc)]

theorem execRestore_legal {es : List Word} (h : b.length = s.cfg.sw * 8 + 8)
    (hd : elemOperands s.cfg b s.cfg.sw = some es) (hc : cursorOperand s.cfg b < s.cfg.rw) :
    execRestore b s = .next (respond [] (s.setContext ⟨es, BitVec.ofNat 64 (cursorOperand s.cfg b)⟩)) := by
  rw [execRestore, if_neg (by simpa using h), hd]
  simp only [if_neg (show ¬ cursorOperand s.cfg b ≥ s.cfg.rw by omega)]

theorem execHash_next :
    execHash b s = .next (respond (squeeze s.cfg (hashResult s.cfg b)) s.leaveScratch) := rfl

theorem execHashf_illegal (h : b.length % 8 ≠ 0) : execHashf b s = .next (raise .illegalCommand s) := by
  rw [execHashf, if_pos h]

theorem execHashf_invalid (h : b.length % 8 = 0) (hd : elemOperands s.cfg b (b.length / 8) = none) :
    execHashf b s = .next (raise .invalidFieldElement s) := by
  rw [execHashf, if_neg (by simpa using h), hd]

theorem execHashf_legal {es : List Word} (h : b.length % 8 = 0) (hd : elemOperands s.cfg b (b.length / 8) = some es) :
    execHashf b s = .next (respond (squeeze s.cfg (hashfResult s.cfg es)) s.leaveScratch) := by
  rw [execHashf, if_neg (by simpa using h), hd]

theorem execMerge_illegal (h : b.length ≠ 2 * s.cfg.ds * 8) : execMerge b s = .next (raise .illegalCommand s) := by
  rw [execMerge, if_pos h]

theorem execMerge_invalid (h : b.length = 2 * s.cfg.ds * 8) (hd : elemOperands s.cfg b (2 * s.cfg.ds) = none) :
    execMerge b s = .next (raise .invalidFieldElement s) := by
  rw [execMerge, if_neg (by simpa using h), hd]

theorem execMerge_legal {es : List Word} (h : b.length = 2 * s.cfg.ds * 8)
    (hd : elemOperands s.cfg b (2 * s.cfg.ds) = some es) :
    execMerge b s = .next (respond (squeeze s.cfg (mergeResult s.cfg es)) s.leaveScratch) := by
  rw [execMerge, if_neg (by simpa using h), hd]

theorem execPermute_illegal (h : b.length ≠ s.cfg.sw * 8) : execPermute b s = .next (raise .illegalCommand s) := by
  rw [execPermute, if_pos h]

theorem execPermute_invalid (h : b.length = s.cfg.sw * 8) (hd : elemOperands s.cfg b s.cfg.sw = none) :
    execPermute b s = .next (raise .invalidFieldElement s) := by
  rw [execPermute, if_neg (by simpa using h), hd]

theorem execPermute_legal {es : List Word} (h : b.length = s.cfg.sw * 8)
    (hd : elemOperands s.cfg b s.cfg.sw = some es) :
    execPermute b s = .next (respond (encElems (permute s.cfg es)) s.leaveScratch) := by
  rw [execPermute, if_neg (by simpa using h), hd]

end Sys2Proof.Machine
end

