-- ==== Sys2Proof/Laws/Effect.lean ====
section
/-! SUPPORT. Said once: all that a command can do. Its effect is a value computed from the configuration, the context and
the command alone; executing it applies that value to the state. -/

namespace Sys2Proof.Machine

/-- All that a command can do: answer one response, and write the context or use the scratch state. -/
structure Effect where
  /-- The response's status. -/
  st : Status
  /-- The response's payload. -/
  payload : List Byte
  /-- The context written, if it is. -/
  ctx : Option Sponge
  /-- Whether the scratch state was used. -/
  scratch : Bool

/-- An effect applied to a state. -/
def Effect.apply (e : Effect) (s : State) : State :=
  ((if e.scratch then s.leaveScratch else s).setContext (e.ctx.getD s.context)).send (responseFrame e.st e.payload)

/-- An error's effect (R164). -/
def errorEffect (st : Status) : Effect := ⟨st, [], none, false⟩

/-- The effect of each command (R111, R120, R123, R124, R125, R140, R141, R142, R150, R151). -/
def effect (c : Cfg) (sp : Sponge) : Instr → Effect
  | .new b => if b.length ≠ 0 then errorEffect .illegalCommand else ⟨.ok, [], some ⟨freshArray c, 0⟩, false⟩
  | .absorb b => ⟨.ok, [], some (absorbAll c sp (byteElems c b)), false⟩
  | .absorbf b =>
    if b.length % 8 ≠ 0 then errorEffect .illegalCommand
    else
      match elemOperands c b (b.length / 8) with
      | none => errorEffect .invalidFieldElement
      | some es => ⟨.ok, [], some (absorbAll c sp es), false⟩
  | .finalize b =>
    if b.length ≠ 0 then errorEffect .illegalCommand
    else ⟨.ok, squeeze c (finalizeContext c sp).X, some (finalizeContext c sp), false⟩
  | .save b => if b.length ≠ 0 then errorEffect .illegalCommand else ⟨.ok, persisted sp, none, false⟩
  | .restore b =>
    if b.length ≠ c.sw * 8 + 8 then errorEffect .illegalCommand
    else
      match elemOperands c b c.sw with
      | none => errorEffect .invalidFieldElement
      | some es =>
        if cursorOperand c b ≥ c.rw then errorEffect .badCursor
        else ⟨.ok, [], some ⟨es, BitVec.ofNat 64 (cursorOperand c b)⟩, false⟩
  | .hash b => ⟨.ok, squeeze c (hashResult c b), none, true⟩
  | .hashf b =>
    if b.length % 8 ≠ 0 then errorEffect .illegalCommand
    else
      match elemOperands c b (b.length / 8) with
      | none => errorEffect .invalidFieldElement
      | some es => ⟨.ok, squeeze c (hashfResult c es), none, true⟩
  | .merge b =>
    if b.length ≠ 2 * c.ds * 8 then errorEffect .illegalCommand
    else
      match elemOperands c b (2 * c.ds) with
      | none => errorEffect .invalidFieldElement
      | some es => ⟨.ok, squeeze c (mergeResult c es), none, true⟩
  | .permute b =>
    if b.length ≠ c.sw * 8 then errorEffect .illegalCommand
    else
      match elemOperands c b c.sw with
      | none => errorEffect .invalidFieldElement
      | some es => ⟨.ok, encElems (permute c es), none, true⟩

@[simp] theorem apply_variant (e : Effect) (s : State) : (e.apply s).variant = s.variant := by
  cases h : e.scratch <;> simp [Effect.apply, h]
@[simp] theorem apply_S (e : Effect) (s : State) : (e.apply s).S = (e.ctx.getD s.context).X := rfl
@[simp] theorem apply_IDX (e : Effect) (s : State) : (e.apply s).IDX = (e.ctx.getD s.context).k := rfl
theorem apply_T (e : Effect) (s : State) : (e.apply s).T = if e.scratch then s.leaveScratch.T else s.T := by
  cases h : e.scratch <;> simp [Effect.apply, h]
theorem apply_j (e : Effect) (s : State) : (e.apply s).j = if e.scratch then s.leaveScratch.j else s.j := by
  cases h : e.scratch <;> simp [Effect.apply, h]
@[simp] theorem apply_rx (e : Effect) (s : State) : (e.apply s).rx = s.rx := by
  cases h : e.scratch <;> simp [Effect.apply, h]
@[simp] theorem apply_tx (e : Effect) (s : State) : (e.apply s).tx = s.tx ++ responseFrame e.st e.payload := by
  cases h : e.scratch <;> simp [Effect.apply, h]
@[simp] theorem apply_context (e : Effect) (s : State) : (e.apply s).context = e.ctx.getD s.context := rfl

theorem apply_errorEffect (st : Status) (s : State) : (errorEffect st).apply s = raise st s := rfl

/-- Executing a command is applying its effect. -/
theorem exec_eq_apply (i : Instr) (s : State) : exec i s = .next ((effect s.cfg s.context i).apply s) := by
  cases i with
  | new b => simp only [exec, execNew, effect]; split <;> rfl
  | absorb b => rfl
  | absorbf b =>
    simp only [exec, execAbsorbf, effect]
    by_cases h : b.length % 8 ≠ 0
    · simp only [if_pos h]; rfl
    · simp only [if_neg h]; cases elemOperands s.cfg b (b.length / 8) <;> rfl
  | finalize b => simp only [exec, execFinalize, effect]; split <;> rfl
  | save b => simp only [exec, execSave, effect]; split <;> rfl
  | restore b =>
    simp only [exec, execRestore, effect]
    by_cases h : b.length ≠ s.cfg.sw * 8 + 8
    · simp only [if_pos h]; rfl
    · simp only [if_neg h]
      cases elemOperands s.cfg b s.cfg.sw with
      | none => rfl
      | some es => by_cases hc : cursorOperand s.cfg b ≥ s.cfg.rw <;> simp only [hc, if_true, if_false] <;> rfl
  | hash b => rfl
  | hashf b =>
    simp only [exec, execHashf, effect]
    by_cases h : b.length % 8 ≠ 0
    · simp only [if_pos h]; rfl
    · simp only [if_neg h]; cases elemOperands s.cfg b (b.length / 8) <;> rfl
  | merge b =>
    simp only [exec, execMerge, effect]
    by_cases h : b.length ≠ 2 * s.cfg.ds * 8
    · simp only [if_pos h]; rfl
    · simp only [if_neg h]; cases elemOperands s.cfg b (2 * s.cfg.ds) <;> rfl
  | permute b =>
    simp only [exec, execPermute, effect]
    by_cases h : b.length ≠ s.cfg.sw * 8
    · simp only [if_pos h]; rfl
    · simp only [if_neg h]; cases elemOperands s.cfg b s.cfg.sw <;> rfl

/-- The same of a step whose received bytes begin with a whole frame. -/
theorem step_of_decode {s : State} {i : Instr} {rest : List Byte} (h : decode s.rx = .instr i rest) :
    step s = .next ((effect s.cfg s.context i).apply (s.setRx rest)) := by
  rw [step, h]
  exact exec_eq_apply i (s.setRx rest)

end Sys2Proof.Machine
end

