-- ==== Sys2Proof/Laws/PerInstr.lean ====
section
/-! SUPPORT. Facts about every command as syntax, one lemma per constructor. -/

namespace Sys2Proof.Laws.FrameHeader

/-- A command's frame is `9 + LEN` bytes long, and its first byte is an opcode that the opcode map sends back to the
command (R61, R64). -/
def Statement (i : Sys2Proof.Instr) : Prop :=
  (encode i).length = 9 + i.payload.length ∧ ∃ op t, encode i = op :: t ∧ instrOf op i.payload = some i

theorem of_instrOf {i : Sys2Proof.Instr} (h : instrOf (opcodeOf i) i.payload = some i) : Statement i :=
  ⟨by simp [encode, commandFrame]; omega, _, _, rfl, h⟩

theorem new (payload : List Byte) : Statement (.new payload) := of_instrOf rfl
theorem absorb (payload : List Byte) : Statement (.absorb payload) := of_instrOf rfl
theorem absorbf (payload : List Byte) : Statement (.absorbf payload) := of_instrOf rfl
theorem finalize (payload : List Byte) : Statement (.finalize payload) := of_instrOf rfl
theorem save (payload : List Byte) : Statement (.save payload) := of_instrOf rfl
theorem restore (payload : List Byte) : Statement (.restore payload) := of_instrOf rfl
theorem hash (payload : List Byte) : Statement (.hash payload) := of_instrOf rfl
theorem hashf (payload : List Byte) : Statement (.hashf payload) := of_instrOf rfl
theorem merge (payload : List Byte) : Statement (.merge payload) := of_instrOf rfl
theorem permute (payload : List Byte) : Statement (.permute payload) := of_instrOf rfl

end Sys2Proof.Laws.FrameHeader
end

