-- ==== Sys2Proof/Laws/Step.lean ====
section
/-! SUPPORT. What a step does with a whole frame, how a run unfolds, and the commands on encoded canonical elements. -/

namespace Sys2Proof.Machine

/-- A step on a whole frame of a command (R20, R61). -/
theorem step_encode {s : State} {i : Instr} {rest : List Byte} (hi : i.payload.length < 2 ^ 64)
    (hr : s.rx = encode i ++ rest) : step s = exec i (s.setRx rest) := by
  have h := decode_commandFrame (opcodeOf i) i.payload rest hi
  rw [instrOf_opcodeOf] at h
  rw [step, hr, encode, h]

/-- A run whose first step answers a next state. -/
theorem run_succ_of_next {k : Nat} {s t : State} (h : step s = .next t) :
    Host.Core.run Sys2Proof.core (k + 1) s = Host.Core.run Sys2Proof.core k t := by
  have h' : Host.Core.step Sys2Proof.core s = .next t := h
  simp only [Host.Core.run, h']

/-- ABSORBF of encoded canonical elements (R124). -/
theorem execAbsorbf_encElems (s : State) {es : List Word} (h : canonicalAll s.cfg.p es = true) :
    execAbsorbf (encElems es) s = .next (respond [] (s.setContext (absorbAll s.cfg s.context es))) := by
  have hl : (encElems es).length / 8 = es.length := by rw [encElems_length]; omega
  exact execAbsorbf_legal s _ (by rw [encElems_length]; omega) (by rw [hl]; exact elemOperands_encElems' _ _ h)

/-- HASHF of encoded canonical elements (R141). -/
theorem execHashf_encElems (s : State) {es : List Word} (h : canonicalAll s.cfg.p es = true) :
    execHashf (encElems es) s = .next (respond (squeeze s.cfg (hashfResult s.cfg es)) s.leaveScratch) := by
  have hl : (encElems es).length / 8 = es.length := by rw [encElems_length]; omega
  exact execHashf_legal s _ (by rw [encElems_length]; omega) (by rw [hl]; exact elemOperands_encElems' _ _ h)

/-- A good context stays good, whatever the command (R21, R27). -/
theorem effect_context_ok (v : Variant) {sp : Sponge} (h : sp.Ok v.cfg) (i : Instr) :
    ((effect v.cfg sp i).ctx.getD sp).Ok v.cfg := by
  cases i <;> simp only [effect] <;> (repeat' split) <;> simp only [errorEffect, Option.getD_none, Option.getD_some, h]
  · exact fresh_ok v
  · exact absorbAll_ok v _ h
  · exact absorbAll_ok v _ h
  · exact finalizeContext_ok v h
  · next es hes hc =>
    obtain ⟨h1, h2, _⟩ := elemOperands_some v.wf hes
    have := v.rw_lt_two_pow
    refine ⟨h1, h2, ?_⟩
    rw [BitVec.toNat_ofNat, Nat.mod_eq_of_lt (by omega)]
    omega

end Sys2Proof.Machine
end

