-- ==== Sys2Proof/Tests/Slice0.lean ====
section
/-! SUPPORT. The model's own tests: ill-formed commands refused, words written out from the encoding, one step of each
command against 95_test_vectors.md (V<n>, P<n> in the comments), and for every statement with hypotheses a state and operands
that meet them. -/

namespace Sys2Proof.Tests

open Sys2Proof.Machine

/-! ## Test machines -/

/-- TOY-F, and TOY-FC with the copy (95_test_vectors.md section 2). -/
def toyFCfg (yPre : YPre) : Cfg where
  family := .flystel 7 2635249152773512046 [[10, 11], [20, 21]] [[20, 21], [40, 41]] yPre
  sw := 4
  rw := 2
  ds := 2
  nr := 2
  p := toyP
  alpha := 7
  alphaInv := 10540996611094048183
  mds := [[1, 2], [3, 7]]

def toyF (yPre : YPre) : Variant where
  cfg := toyFCfg yPre
  wf :=
    { prime := toyP_prime
      p_ge := by cases yPre <;> decide +kernel
      p_lt := by cases yPre <;> decide +kernel
      rw_pos := by cases yPre <;> decide +kernel
      rw_lt := by cases yPre <;> decide +kernel
      ds_pos := by cases yPre <;> decide +kernel
      ds_le := by cases yPre <;> decide +kernel
      two_ds_le := by cases yPre <;> decide +kernel
      alpha_pos := by cases yPre <;> decide +kernel
      alpha_coprime := by cases yPre <;> decide +kernel
      alphaInv_pos := by cases yPre <;> decide +kernel
      alphaInv_lt := by cases yPre <;> decide +kernel
      alpha_mul := by cases yPre <;> decide +kernel
      mds_fits := by cases yPre <;> decide +kernel
      family_fits := by cases yPre <;> decide +kernel }
  fits := by cases yPre <;> decide +kernel

/-- TOY-R with a rate of two elements, so that two digests fill the rate. -/
def toyM : Variant where
  cfg := { toyRCfg with rw := 2 }
  wf :=
    { prime := toyP_prime
      p_ge := by decide +kernel
      p_lt := by decide +kernel
      rw_pos := by decide +kernel
      rw_lt := by decide +kernel
      ds_pos := by decide +kernel
      ds_le := by decide +kernel
      two_ds_le := by decide +kernel
      alpha_pos := by decide +kernel
      alpha_coprime := by decide +kernel
      alphaInv_pos := by decide +kernel
      alphaInv_lt := by decide +kernel
      alpha_mul := by decide +kernel
      mds_fits := by decide +kernel
      family_fits := by decide +kernel }
  fits := by decide +kernel

/-- A state with a given context and received bytes. -/
def st (v : Variant) (S : List Word) (IDX : Word) (rx : List Byte) : State :=
  { State.resetOf v with S := S, IDX := IDX, rx := rx }

/-- What a test looks at: `S`, `IDX`, the unread frame bytes and the response. -/
def obs : Host.Outcome State Fault Refusal → Option (List Word × Word × List Byte × List Byte)
  | .next t => some (t.S, t.IDX, t.rx, t.tx)
  | .fault _ => none
  | .refused _ => none

/-- The response of `OK` with a digest or a state. -/
def ok (xs : List Word) : List Byte := responseFrame .ok (encElems xs)

/-- `n` bytes of one value. -/
def rep (n : Nat) (b : Byte) : List Byte := List.replicate n b

/-! ## Ill-formed commands are refused -/

/-- R61: a payload of `2^64` bytes has no `LEN`; one byte less has. -/
theorem test_encodable : (Instr.hash (rep (2 ^ 64) 0)).encodable = false ∧ (Instr.hash (rep (2 ^ 64 - 1) 0)).encodable = true := by
  simp only [Instr.encodable, Instr.payload, rep, List.length_replicate]; decide

/-- R65, format Z: one byte of payload is too many. -/
theorem test_lenLegal_Z :
    [Instr.new [0], .finalize [0], .save [0]].all (fun i => !i.lenLegal toyRCfg) = true ∧
      [Instr.new [], .finalize [], .save []].all (fun i => i.lenLegal toyRCfg) = true := by decide

/-- R65, format B: every length is legal. -/
theorem test_lenLegal_B : [Instr.absorb [], .hash [], .absorb [1], .hash (rep 9 1)].all (fun i => i.lenLegal toyRCfg) = true := by
  decide

/-- R65, format E: a multiple of 8. -/
theorem test_lenLegal_E :
    [Instr.absorbf (rep 7 0), .hashf (rep 9 0)].all (fun i => !i.lenLegal toyRCfg) = true ∧
      [Instr.absorbf [], .hashf (rep 8 0)].all (fun i => i.lenLegal toyRCfg) = true := by decide

/-- R65, format F: 40, 16 and 32 bytes for TOY-R, no more and no fewer. -/
theorem test_lenLegal_F :
    [Instr.restore (rep 39 0), .restore (rep 41 0), .merge (rep 15 0), .merge (rep 17 0), .permute (rep 31 0),
      .permute (rep 33 0)].all (fun i => !i.lenLegal toyRCfg) = true ∧
      [Instr.restore (rep 40 0), .merge (rep 16 0), .permute (rep 32 0)].all (fun i => i.lenLegal toyRCfg) = true := by
  decide

/-- R11: an ill-formed configuration is no variant; here `ALPHA = 3` (V41), a table row too short, an entry of `P`. -/
theorem test_ill_formed_cfg : ¬ Nat.Coprime 3 (toyP - 1) ∧ Table.fits toyP 2 2 [[1, 2], [3]] = false ∧
    Table.fits toyP 1 1 [[18446744069414584321]] = false := by decide +kernel

/-! ## Decoding: every command's frame written out byte by byte (R61, R64) -/

theorem test_decode_new : decode [0x01, 0, 0, 0, 0, 0, 0, 0, 0] = .instr (.new []) [] := by decide
theorem test_decode_absorb : decode [0x02, 2, 0, 0, 0, 0, 0, 0, 0, 0x61, 0x62, 0x99] = .instr (.absorb [0x61, 0x62]) [0x99] := by
  decide
theorem test_decode_absorbf :
    decode [0x03, 8, 0, 0, 0, 0, 0, 0, 0, 7, 0, 0, 0, 0, 0, 0, 0] = .instr (.absorbf [7, 0, 0, 0, 0, 0, 0, 0]) [] := by decide
theorem test_decode_finalize : decode [0x04, 0, 0, 0, 0, 0, 0, 0, 0] = .instr (.finalize []) [] := by decide
theorem test_decode_save : decode [0x05, 0, 0, 0, 0, 0, 0, 0, 0] = .instr (.save []) [] := by decide
theorem test_decode_restore : decode ([0x06, 40, 0, 0, 0, 0, 0, 0, 0] ++ rep 40 0xff) = .instr (.restore (rep 40 0xff)) [] := by
  decide
theorem test_decode_hash : decode [0x10, 3, 0, 0, 0, 0, 0, 0, 0, 0x61, 0x62, 0x63] = .instr (.hash [0x61, 0x62, 0x63]) [] := by
  decide
theorem test_decode_hashf : decode [0x11, 0, 0, 0, 0, 0, 0, 0, 0, 0x05] = .instr (.hashf []) [0x05] := by decide
theorem test_decode_merge :
    decode [0x12, 16, 0, 0, 0, 0, 0, 0, 0, 5, 0, 0, 0, 0, 0, 0, 0, 6, 0, 0, 0, 0, 0, 0, 0] =
      .instr (.merge [5, 0, 0, 0, 0, 0, 0, 0, 6, 0, 0, 0, 0, 0, 0, 0]) [] := by decide
theorem test_decode_permute : decode ([0x20, 32, 0, 0, 0, 0, 0, 0, 0] ++ rep 32 0) = .instr (.permute (rep 32 0)) [] := by decide

/-- R61, R90: `LEN` is little-endian; 256 is byte 2. -/
theorem test_decode_len_order : decode ([0x10, 0, 1, 0, 0, 0, 0, 0, 0] ++ rep 256 7) = .instr (.hash (rep 256 7)) [] := by
  decide +kernel

/-- R67: the reserved opcodes next to the defined ones. -/
theorem test_decode_reserved :
    [0x00, 0x07, 0x0f, 0x13, 0x1f, 0x21, 0xff].all (fun op => decode [op, 1, 0, 0, 0, 0, 0, 0, 0, 9, 5] == .reserved op [5]) = true := by
  decide

/-- R65: one byte short is no frame. -/
theorem test_decode_incomplete : decode [0x01, 0, 0, 0, 0, 0, 0, 0] = .incomplete ∧
    decode [0x10, 3, 0, 0, 0, 0, 0, 0, 0, 0x61, 0x62] = .incomplete ∧ decode [] = .incomplete := by decide

/-- The opcode table's ten rows (bits 7..0). -/
theorem test_table_words :
    [0x01, 0x02, 0x03, 0x04, 0x05, 0x06, 0x10, 0x11, 0x12, 0x20].map (decodeTableWord 8) =
      [Instr.new [], .absorb [], .absorbf [], .finalize [], .save [], .restore [], .hash [], .hashf [], .merge [],
        .permute []].map some := by decide

/-- The table's word runs as the first command after reset, whatever the variant. -/
theorem test_first_after_reset :
    step (State.reset.withFetchWord 8 0x01) = exec (.new []) State.reset ∧
      step (State.reset.withFetchWord 8 0x10) = exec (.hash []) State.reset ∧
      step (State.reset.withFetchWord 8 0x20) = exec (.permute []) State.reset := ⟨rfl, rfl, rfl⟩

/-! ## Field and codec vectors -/

/-- V40. -/
theorem test_field :
    fadd toyRCfg 18446744069414584320 5 = 4 ∧ fadd toyRCfg 18446744069414584320 1 = 0 ∧
      fsub toyRCfg 3 5 = 18446744069414584319 ∧ fsub toyRCfg 0 1 = 18446744069414584320 ∧
      fmul toyRCfg 7 2635249152773512046 = 1 ∧ fmul toyRCfg 18446744069414584320 18446744069414584320 = 1 ∧
      fsq toyRCfg 4294967296 = 4294967295 ∧ fpow toyRCfg 2 64 = 4294967295 ∧ fpow toyRCfg 0 0 = 1 ∧
      fpow toyRCfg 0 7 = 0 ∧ fscale toyRCfg 18446744069414584320 2 = 18446744069414584319 := by decide +kernel

/-- V41. -/
theorem test_sbox :
    sbox toyRCfg 2 = 128 ∧ finvSbox toyRCfg 128 = 2 ∧ finvSbox toyRCfg 3 = 3788710053284489046 ∧
      finvSbox toyRCfg 18446744069414584320 = 18446744069414584320 ∧ finvSbox toyRCfg 0 = 0 := by decide +kernel

/-- V42. -/
theorem test_codec :
    enc8 258 = [2, 1, 0, 0, 0, 0, 0, 0] ∧ enc8 18446744069414584320 = [0, 0, 0, 0, 0xff, 0xff, 0xff, 0xff] ∧
      dec8 toyRCfg [0, 0, 0, 0, 0xff, 0xff, 0xff, 0xff] = some 18446744069414584320 ∧
      dec8 toyRCfg [1, 0, 0, 0, 0xff, 0xff, 0xff, 0xff] = none ∧ dec8 toyRCfg (rep 8 0xff) = none := by decide +kernel

/-- V43. -/
theorem test_chunks :
    chunkToField toyRCfg [0x61, 0x62, 0x63] true = 23290465 ∧
      chunkToField toyRCfg [0x61, 0x62, 0x63, 0x64, 0x65, 0x66, 0x67] false = 29104508263162465 ∧
      chunkToField toyRCfg [0x61, 0x62, 0x63, 0x64, 0x65, 0x66, 0x67] true = 101162102301090401 ∧
      chunkToField toyRCfg [0] true = 256 ∧ chunkToField toyRCfg (rep 7 0xff) true = 144115188075855871 ∧
      byteElems toyRCfg [0x61, 0x62, 0x63, 0x64, 0x65, 0x66, 0x67, 0x68] = [29104508263162465, 360] := by decide +kernel

/-! ## The permutation -/

/-- V15. -/
theorem test_mdsMul : mdsMul toyRCfg [[1, 2], [3, 7]] [10, 20] = [50, 170] ∧ mdsMul toyRCfg toyRCfg.mds [0, 0, 0, 1] = [4, 8, 13, 19] := by
  decide +kernel

/-- V16. -/
theorem test_flystelColumn : flystelColumn (toyFCfg .none) 7 2635249152773512046 0 0 = (2635249152773512046, 0) ∧
    flystelColumn (toyFCfg .none) 7 2635249152773512046 135 1 = (2635249152773512181, 18446744069414584320) := by decide +kernel

/-- V13, round 0. -/
theorem test_rescueRound :
    rescueRound toyRCfg [[100, 101, 102, 103]] [[1000, 1001, 1002, 1003]] [1, 2, 3, 4] 0 =
      [8417664124629294404, 17141158992312048657, 13342236527017585538, 17289572870603328549] := by decide +kernel

/-- V11 and V12: the two `Y_PRE` values. -/
theorem test_permute_flystel :
    permute (toyFCfg .none) [1, 2, 3, 4] =
        [14184402423535734766, 8499602272893584121, 3389013407397701091, 18088022127800749848] ∧
      permute (toyFCfg .copyLastFromFirst) [1, 2, 3, 4] =
        [4976725591488860932, 8809031585706760884, 2175850906009808288, 13401751043170889067] := by decide +kernel

/-! ## One step of each command -/

/-- V65 and R120: NEW clears the context; with a payload byte it does not. -/
theorem test_new :
    obs (step (st toyR [5, 6, 0, 0] 2 [0x01, 0, 0, 0, 0, 0, 0, 0, 0])) = some ([0, 0, 0, 0], 0, [], [0, 0, 0, 0, 0, 0, 0, 0, 0]) ∧
      obs (step (st toyR [5, 0, 0, 0] 1 [0x01, 1, 0, 0, 0, 0, 0, 0, 0, 0])) =
        some ([5, 0, 0, 0], 1, [], [2, 0, 0, 0, 0, 0, 0, 0, 0]) := by decide +kernel

/-- V22, both ways of sending "abcdefgh". -/
theorem test_absorb :
    obs (exec (.absorb [0x61, 0x62, 0x63, 0x64, 0x65, 0x66, 0x67, 0x68]) (st toyR [0, 0, 0, 0] 0 [])) =
        some ([29104508263162465, 360, 0, 0], 2, [], ok []) ∧
      obs (exec (.absorb [0x68]) (st toyR [101162102301090401, 0, 0, 0] 1 [])) =
        some ([101162102301090401, 360, 0, 0], 2, [], ok []) := by decide +kernel

/-- P1: the block fills inside the command, and the next element goes into position 0. -/
theorem test_absorbf :
    obs (step (st toyR [1, 2, 0, 0] 2 ([0x03, 16, 0, 0, 0, 0, 0, 0, 0, 3, 0, 0, 0, 0, 0, 0, 0] ++ [4, 0, 0, 0, 0, 0, 0, 0]))) =
      some ([6767295784768159373, 6382712440142407530, 13676832077517990693, 5870655979597675071], 1, [],
        [0, 0, 0, 0, 0, 0, 0, 0, 0]) := by decide +kernel

/-- V61 and V62: nothing is absorbed before every element has been checked. -/
theorem test_absorbf_errors :
    obs (exec (.absorbf (enc8 6 ++ rep 8 0xff)) (st toyR [5, 0, 0, 0] 1 [])) =
        some ([5, 0, 0, 0], 1, [], [1, 0, 0, 0, 0, 0, 0, 0, 0]) ∧
      obs (exec (.absorbf [1, 2, 3]) (st toyR [5, 0, 0, 0] 1 [])) =
        some ([5, 0, 0, 0], 1, [], [2, 0, 0, 0, 0, 0, 0, 0, 0]) := by decide +kernel

/-- V21 and P1: padding from position 1. -/
theorem test_finalize :
    obs (exec (.finalize []) (st toyR [5, 0, 0, 0] 1 [])) =
        some ([3719174244940628445, 7637322904873450602, 10039655275187434305, 14514688080280390209], 0, [],
          ok [3719174244940628445]) ∧
      obs (exec (.finalize []) (st toyR [3058752786915033500, 1, 2, 3] 0 [])) =
        some ([3058752786915033500, 1, 2, 3], 0, [], ok [3058752786915033500]) := by decide +kernel

/-- V27: `IDX = RW - 1`, so no zero follows the `one`. -/
theorem test_finalize_flystel :
    obs (exec (.finalize []) (st (toyF .none) [9, 0, 0, 0] 1 [])) =
      some ([14118314358829241757, 9364841747354515975, 3293214983820668829, 1504059131026986684], 0, [],
        ok [14118314358829241757, 9364841747354515975]) := by decide +kernel

/-- V50. -/
theorem test_save :
    obs (exec (.save []) (st toyR [5, 0, 0, 0] 1 [])) =
      some ([5, 0, 0, 0], 1, [], [0, 40, 0, 0, 0, 0, 0, 0, 0] ++ ([5, 0, 0, 0, 0, 0, 0, 0] ++ rep 24 0 ++ [1, 0, 0, 0, 0, 0, 0, 0])) := by
  decide +kernel

/-- V51, V63: the cursor 2 is taken, 3 is refused (`RW = 3`). -/
theorem test_restore :
    obs (exec (.restore (encElems [5, 0, 0, 0] ++ toLe64 2)) (st toyR [7, 0, 0, 0] 1 [])) = some ([5, 0, 0, 0], 2, [], ok []) ∧
      obs (exec (.restore (encElems [5, 0, 0, 0] ++ toLe64 3)) (st toyR [7, 0, 0, 0] 1 [])) =
        some ([7, 0, 0, 0], 1, [], [3, 0, 0, 0, 0, 0, 0, 0, 0]) := by decide +kernel

/-- V64: the order of the checks. -/
theorem test_restore_priority :
    obs (exec (.restore (rep 8 0xff ++ rep 24 0 ++ toLe64 9)) (st toyR [7, 0, 0, 0] 1 [])) =
        some ([7, 0, 0, 0], 1, [], [1, 0, 0, 0, 0, 0, 0, 0, 0]) ∧
      obs (exec (.restore (rep 32 0xff)) (st toyR [7, 0, 0, 0] 1 [])) =
        some ([7, 0, 0, 0], 1, [], [2, 0, 0, 0, 0, 0, 0, 0, 0]) := by decide +kernel

/-- V30, the response byte by byte, and V36. -/
theorem test_hash :
    obs (exec (.hash [0x61, 0x62, 0x63]) (st toyR [7, 0, 0, 0] 1 [])) =
        some ([7, 0, 0, 0], 1, [], [0, 8, 0, 0, 0, 0, 0, 0, 0, 0x2a, 0x2b, 0x23, 0x47, 0xc1, 0x27, 0xe9, 0x71]) ∧
      obs (exec (.hash [0x61, 0x62, 0x63]) (st (toyF .none) [0, 0, 0, 0] 0 [])) =
        some ([0, 0, 0, 0], 0, [], ok [7119382260334175798, 409321224557468019]) := by decide +kernel

/-- V32: 21 bytes fill the block in the loop, and no permutation follows. -/
theorem test_hash_block :
    obs (exec (.hash [0, 1, 2, 3, 4, 5, 6, 7, 8, 9, 10, 11, 12, 13, 14, 15, 16, 17, 18, 19, 20]) (st toyR [0, 0, 0, 0] 0 [])) =
      some ([0, 0, 0, 0], 0, [], ok [15249187723475920945]) := by decide +kernel

/-- V25 and V35. -/
theorem test_hashf :
    obs (exec (.hashf (encElems [1, 1, 1, 1])) (st toyR [7, 0, 0, 0] 1 [])) =
        some ([7, 0, 0, 0], 1, [], ok [9084768959999496759]) ∧
      obs (exec (.hashf (encElems [9])) (st (toyF .copyLastFromFirst) [0, 0, 0, 0] 0 [])) =
        some ([0, 0, 0, 0], 0, [], ok [8648863938250503753, 17198767801986356556]) := by decide +kernel

/-- V67: the integer `P` is refused, `P - 1` is not. -/
theorem test_hashf_bound :
    obs (exec (.hashf [1, 0, 0, 0, 0xff, 0xff, 0xff, 0xff]) (st toyR [7, 0, 0, 0] 1 [])) =
        some ([7, 0, 0, 0], 1, [], [1, 0, 0, 0, 0, 0, 0, 0, 0]) ∧
      obs (exec (.hashf [0, 0, 0, 0, 0xff, 0xff, 0xff, 0xff]) (st toyR [7, 0, 0, 0] 1 [])) =
        some ([7, 0, 0, 0], 1, [], ok [4060627059026238868]) := by decide +kernel

/-- V33, V34: the order of the digests, and a second digest in the capacity. -/
theorem test_merge :
    obs (exec (.merge (encElems [5, 6])) (st toyR [7, 0, 0, 0] 1 [])) = some ([7, 0, 0, 0], 1, [], ok [15172907871227406528]) ∧
      obs (exec (.merge (encElems [6, 5])) (st toyR [7, 0, 0, 0] 1 [])) = some ([7, 0, 0, 0], 1, [], ok [14746120515992578329]) := by
  decide +kernel

/-- P3, the root. -/
theorem test_merge_flystel :
    obs (exec (.merge (encElems [908025875847641793, 18082582814985060326, 2441866540079557690, 8371406010473221516]))
        (st (toyF .none) [0, 0, 0, 0] 0 [])) =
      some ([0, 0, 0, 0], 0, [], ok [14770633551963440675, 8117319502346052316]) := by decide +kernel

/-- V10 as a frame. -/
theorem test_permute :
    obs (step (st toyR [7, 0, 0, 0] 1 ([0x20, 32, 0, 0, 0, 0, 0, 0, 0] ++ rep 32 0 ++ [0x05]))) =
      some ([7, 0, 0, 0], 1, [0x05],
        ok [6516717683510840899, 5585216622910513650, 623360083616130620, 1665098516878907916]) := by decide +kernel

/-- V68: a reserved opcode's payload is consumed with it. -/
theorem test_reserved :
    obs (step (st toyR [5, 0, 0, 0] 1 [0x00, 3, 0, 0, 0, 0, 0, 0, 0, 0x78, 0x79, 0x7a, 0x05])) =
      some ([5, 0, 0, 0], 1, [0x05], [2, 0, 0, 0, 0, 0, 0, 0, 0]) := by decide +kernel

/-- R65: the engine waits. -/
theorem test_wait : step (st toyR [5, 0, 0, 0] 1 [0x05, 0, 0, 0]) = .next (st toyR [5, 0, 0, 0] 1 [0x05, 0, 0, 0]) := rfl

/-- R180, V50: reset in the middle of a frame, then SAVE. -/
theorem test_hardReset :
    obs (step ((st toyR [5, 0, 0, 0] 1 [0x10, 3, 0]).hardReset.hostSend [0x05, 0, 0, 0, 0, 0, 0, 0, 0])) =
      some ([0, 0, 0, 0], 0, [], [0, 40, 0, 0, 0, 0, 0, 0, 0] ++ rep 40 0) := by decide +kernel


/-! ## Witnesses: the hypotheses of each statement can be met

One theorem for each statement of Certificates/Slice0/Obligations.lean that has hypotheses, at the ends of their ranges. -/

/-- A test state of TOY-R with the invariant. -/
theorem inv_of {v : Variant} {S : List Word} {k : Word} {rx : List Byte}
    (h : (S.length == v.cfg.sw && canonicalAll v.cfg.p S && decide (k.toNat < v.cfg.rw)) = true) : (st v S k rx).Inv := by
  simp only [Bool.and_eq_true, beq_iff_eq, decide_eq_true_eq] at h
  exact ⟨h.1.1, h.1.2, h.2⟩

theorem witness_DecodeOfEncodeIsTheCommand :
    (Instr.new []).encodable = true ∧ (Instr.permute (rep (2 ^ 64 - 1) 0)).encodable = true := by
  simp only [Instr.encodable, Instr.payload, rep, List.length_replicate]; decide

theorem witness_DecodedBytesAreTheEncodedFrame : decode [0x10, 1, 0, 0, 0, 0, 0, 0, 0, 0x61, 0x05] = .instr (.hash [0x61]) [0x05] := by
  decide

theorem witness_StepRunsTheDecodedCommand :
    decode (st toyR [0, 0, 0, 0] 0 [0x12, 1, 0, 0, 0, 0, 0, 0, 0, 0x61, 0x05]).rx = .instr (.merge [0x61]) [0x05] := by decide

/-- Eight bytes; and nine header bytes with one of two payload bytes. -/
theorem witness_StepWaitsForTheRestOfAFrame :
    (st toyR [0, 0, 0, 0] 0 (rep 8 1)).rx.length < 9 ∧
      (let s := st toyR [0, 0, 0, 0] 0 [0x10, 2, 0, 0, 0, 0, 0, 0, 0, 0x61]
       ¬ s.rx.length < 9 ∧ s.rx.length < 9 + le64 ((s.rx.drop 1).take 8)) := by decide

theorem witness_LaterBytesDoNotChangeAFrame :
    decode (st toyR [0, 0, 0, 0] 0 [0x04, 0, 0, 0, 0, 0, 0, 0, 0]).rx ≠ .incomplete ∧
      decode (st toyR [0, 0, 0, 0] 0 [0xff, 0, 0, 0, 0, 0, 0, 0, 0]).rx ≠ .incomplete := by decide

/-- A reserved opcode, a defined one with an illegal `LEN`, and one with a legal `LEN`. -/
theorem witness_ReservedOpcodeOrIllegalLenIsRefusedWhole :
    ((rep 3 0).length < 2 ^ 64 ∧ (st toyR [5, 0, 0, 0] 1 (commandFrame 0x07 (rep 3 0) ++ [5])).rx = commandFrame 0x07 (rep 3 0) ++ [5] ∧
      (0x07 : Byte) ∉ ([0x01, 0x02, 0x03, 0x04, 0x05, 0x06, 0x10, 0x11, 0x12, 0x20] : List Byte)) ∧
    ((rep 1 0).length < 2 ^ 64 ∧ (0x01 : Byte) ∈ ([0x01, 0x02, 0x03, 0x04, 0x05, 0x06, 0x10, 0x11, 0x12, 0x20] : List Byte) ∧
      (Instr.new (rep 1 0)).lenLegal (st toyR [5, 0, 0, 0] 1 (commandFrame 0x01 (rep 1 0))).cfg = false) ∧
    (Instr.permute (rep 32 0)).lenLegal (st toyR [5, 0, 0, 0] 1 (commandFrame 0x20 (rep 32 0))).cfg = true := by decide

/-- One frame for each status: all four occur. -/
theorem witness_EveryFrameGetsItsStatus :
    (rep 40 0xff).length < 2 ^ 64 ∧
      (st toyR [5, 0, 0, 0] 1 (commandFrame 0x06 (rep 40 0xff) ++ [9])).rx = commandFrame 0x06 (rep 40 0xff) ++ [9] ∧
      statusOfFrame toyRCfg 0x06 (rep 40 0xff) = .invalidFieldElement ∧ statusOfFrame toyRCfg 0x06 (rep 40 0) = .ok ∧
      statusOfFrame toyRCfg 0x06 (rep 32 0 ++ toLe64 3) = .badCursor ∧ statusOfFrame toyRCfg 0x06 (rep 32 0 ++ toLe64 2) = .ok ∧
      statusOfFrame toyRCfg 0x06 (rep 39 0xff) = .illegalCommand ∧ statusOfFrame toyRCfg 0x21 [] = .illegalCommand := by
  decide +kernel

theorem witness_EveryStepAnswersANextState : (st toyR [5, 0, 0, 18446744069414584320] 2 []).Inv := inv_of (by decide +kernel)

theorem witness_EveryStepKeepsTheInvariant :
    (st toyR [5, 0, 0, 18446744069414584320] 2 (encode (.absorbf (enc8 7)))).Inv ∧
      ∃ t, step (st toyR [5, 0, 0, 18446744069414584320] 2 (encode (.absorbf (enc8 7)))) = .next t :=
  ⟨inv_of (by decide +kernel), _, rfl⟩

/-- Two states that differ in the scratch state and in what was sent. -/
theorem witness_StepReadsOnlyTheContext :
    let s₁ := st toyR [5, 0, 0, 0] 1 [0x05, 0, 0, 0, 0, 0, 0, 0, 0]
    let s₂ := { s₁ with T := [9], j := 7, scratchUses := 3, tx := [1] }
    s₁.variant = s₂.variant ∧ s₁.S = s₂.S ∧ s₁.IDX = s₂.IDX ∧ s₁.rx = s₂.rx ∧ s₁.T ≠ s₂.T := ⟨rfl, rfl, rfl, rfl, by decide⟩

theorem witness_OneShotCommandsArePure (b : List Byte) :
    Instr.hash b ∈ [Instr.hash b, .hashf b, .merge b, .permute b] ∧ Instr.permute b ∈ [Instr.hash b, .hashf b, .merge b, .permute b] ∧
      (st toyR [5, 0, 0, 0] 1 []).variant = toyR := ⟨by simp, by simp, rfl⟩

theorem witness_NewGivesTheFreshContext : ([0] : List Byte) ≠ [] := by decide

/-- The cursor at `RW - 1` (the block fills) and at 0 (it does not), with the largest element. -/
theorem witness_AbsorbfAddsOneElementAtTheCursor :
    let e : Word := 18446744069414584320
    let s := st toyR [5, 0, 0, 0] 2 []
    let s' := st toyR [5, 0, 0, 0] 0 []
    e.toNat < s.cfg.p ∧ s.IDX.toNat < s.cfg.rw ∧ s.IDX.toNat + 1 = s.cfg.rw ∧ s'.IDX.toNat + 1 < s'.cfg.rw := by decide +kernel

/-- From an empty block, up to one element short of full. -/
theorem witness_AbsorbfWithinABlockAddsIntoTheRate :
    (st toyR [5, 0, 0, 9] 0 []).Inv ∧ canonicalAll toyRCfg.p [18446744069414584320, 1] = true ∧
      (st toyR [5, 0, 0, 9] 0 []).IDX.toNat + [(18446744069414584320 : Word), 1].length < toyRCfg.rw :=
  ⟨inv_of (by decide +kernel), by decide +kernel, by decide +kernel⟩

theorem witness_AbsorbfIsSplitInvariant :
    canonicalAll (st toyR [5, 0, 0, 9] 2 []).cfg.p [1, 2] = true ∧ canonicalAll (st toyR [5, 0, 0, 9] 2 []).cfg.p [] = true := by
  decide +kernel

theorem witness_ByteInputIsCutIntoSevenByteChunks :
    (1 ≤ (rep 1 0).length ∧ (rep 1 0).length ≤ 7) ∧ (1 ≤ (rep 7 0).length ∧ (rep 7 0).length ≤ 7) ∧
      (rep 7 0).length = 7 ∧ rep 1 0 ≠ [] := by decide

theorem witness_ChunkElementIsBytesPlusMarker :
    (1 ≤ (rep 1 0xff).length ∧ (rep 1 0xff).length ≤ 7 ∧ (true = false → (rep 1 0xff).length = 7)) ∧
      (1 ≤ (rep 7 0xff).length ∧ (rep 7 0xff).length ≤ 7 ∧ (false = false → (rep 7 0xff).length = 7)) := by decide

theorem witness_SplittingAByteMessageChangesItsElements : rep 7 0x61 ≠ [] ∧ rep 1 0x68 ≠ [] := by decide

/-- No block pending; and the cursor at `RW - 1`. -/
theorem witness_FinalizeIsAbsorbingOneAndZeros :
    ((st toyR [5, 0, 0, 9] 0 []).Inv ∧ (st toyR [5, 0, 0, 9] 0 []).IDX = 0) ∧
      ((st toyR [5, 0, 0, 9] 2 []).Inv ∧ (st toyR [5, 0, 0, 9] 2 []).IDX ≠ 0) :=
  ⟨⟨inv_of (by decide +kernel), by decide⟩, inv_of (by decide +kernel), by decide⟩

theorem witness_FinalizeTwiceAnswersTheSameDigest : ∃ t, exec (.finalize []) (st toyR [5, 0, 0, 9] 2 []) = .next t := ⟨_, rfl⟩

theorem witness_ShortHashPermutesOnce :
    (1 ≤ (rep 1 0).length ∧ (rep 1 0).length ≤ 7) ∧ (1 ≤ (rep 7 0).length ∧ (rep 7 0).length ≤ 7) := by decide

/-- A wrong length; the integer `P`; the integer `P - 1`. -/
theorem witness_HashfIsAbsorbfFromTheZeroState :
    (rep 7 0).length % 8 ≠ 0 ∧
      ((toLe64 toyP).length % 8 = 0 ∧ ∃ k < (toLe64 toyP).length / 8, toyRCfg.p ≤ le64 (memRead (toLe64 toyP) (8 * k) 8)) ∧
      ((toLe64 (toyP - 1)).length % 8 = 0 ∧
        ∀ k < (toLe64 (toyP - 1)).length / 8, le64 (memRead (toLe64 (toyP - 1)) (8 * k) 8) < toyRCfg.p) :=
  ⟨by decide, ⟨by decide, 0, by decide, by decide +kernel⟩, by decide, by decide +kernel⟩

/-- Parts of one, no and three elements. -/
theorem witness_HashfEqualsTheStreamingCommands :
    let parts : List (List Word) := [[1], [], [1, 1, 18446744069414584320]]
    (∀ part ∈ parts, canonicalAll (st toyR [0, 0, 0, 0] 0 []).cfg.p part = true) ∧ 8 * parts.flatten.length < 2 ^ 64 := by
  decide +kernel

theorem witness_HashfPaddingCollision :
    canonicalAll (st toyR [0, 0, 0, 0] 0 []).cfg.p [5] = true ∧ [(5 : Word)].length % (st toyR [0, 0, 0, 0] 0 []).cfg.rw ≠ 0 ∧
      canonicalAll toyRCfg.p [1, 2, 3, 4, 5] = true ∧ [(1 : Word), 2, 3, 4, 5].length % toyRCfg.rw ≠ 0 := by decide +kernel

/-- A wrong length; the integer `P` as the last element; two digests. -/
theorem witness_MergePermutesTheTwoDigests :
    (rep 15 0).length ≠ 2 * toyRCfg.ds * 8 ∧
      ((rep 8 0 ++ toLe64 toyP).length = 2 * toyRCfg.ds * 8 ∧
        ∃ k < 2 * toyRCfg.ds, toyRCfg.p ≤ le64 (memRead (rep 8 0 ++ toLe64 toyP) (8 * k) 8)) ∧
      ([(18446744069414584320 : Word)].length = toyRCfg.ds ∧ [(0 : Word)].length = toyRCfg.ds ∧
        canonicalAll toyRCfg.p [18446744069414584320] = true ∧ canonicalAll toyRCfg.p [0] = true) :=
  ⟨by decide, ⟨by decide, 1, by decide, by decide +kernel⟩, by decide, by decide, by decide +kernel, by decide +kernel⟩

theorem witness_MergeIsHashfWhenDigestsFillTheRate :
    2 * toyM.cfg.ds = toyM.cfg.rw ∧ [(5 : Word)].length = toyM.cfg.ds ∧ [(6 : Word)].length = toyM.cfg.ds ∧
      canonicalAll toyM.cfg.p [5] = true ∧ canonicalAll toyM.cfg.p [6] = true := by decide +kernel

/-- A wrong length; the integer `P` as the last element; a state. -/
theorem witness_PermuteAnswersThePermutedState :
    (rep 31 0).length ≠ toyRCfg.sw * 8 ∧
      ((rep 24 0 ++ toLe64 toyP).length = toyRCfg.sw * 8 ∧
        ∃ k < toyRCfg.sw, toyRCfg.p ≤ le64 (memRead (rep 24 0 ++ toLe64 toyP) (8 * k) 8)) ∧
      ([(1 : Word), 2, 3, 18446744069414584320].length = toyRCfg.sw ∧
        canonicalAll toyRCfg.p [1, 2, 3, 18446744069414584320] = true) :=
  ⟨by decide, ⟨by decide, 3, by decide, by decide +kernel⟩, by decide, by decide +kernel⟩

theorem witness_SaveAnswersThePersistedState : (st toyR [5, 0, 0, 9] 2 []).S.length = (st toyR [5, 0, 0, 9] 2 []).cfg.sw ∧ rep 1 0 ≠ [] := by
  decide

/-- A wrong length; `P` as the last element; the cursor at `RW`; the cursor at `RW - 1`. -/
theorem witness_RestoreWritesTheContextOrNothing :
    (rep 39 0).length ≠ toyRCfg.sw * 8 + 8 ∧
      ((rep 24 0 ++ toLe64 toyP ++ rep 8 0).length = toyRCfg.sw * 8 + 8 ∧
        ∃ i < toyRCfg.sw, toyRCfg.p ≤ le64 (memRead (rep 24 0 ++ toLe64 toyP ++ rep 8 0) (8 * i) 8)) ∧
      ((rep 32 0 ++ toLe64 3).length = toyRCfg.sw * 8 + 8 ∧
        (∀ i < toyRCfg.sw, le64 (memRead (rep 32 0 ++ toLe64 3) (8 * i) 8) < toyRCfg.p) ∧
        toyRCfg.rw ≤ le64 (memRead (rep 32 0 ++ toLe64 3) (8 * toyRCfg.sw) 8)) ∧
      ((rep 32 0 ++ toLe64 2).length = toyRCfg.sw * 8 + 8 ∧
        (∀ i < toyRCfg.sw, le64 (memRead (rep 32 0 ++ toLe64 2) (8 * i) 8) < toyRCfg.p) ∧
        le64 (memRead (rep 32 0 ++ toLe64 2) (8 * toyRCfg.sw) 8) < toyRCfg.rw) :=
  ⟨by decide, ⟨by decide, 3, by decide, by decide +kernel⟩, ⟨by decide, by decide +kernel, by decide +kernel⟩,
    by decide, by decide +kernel, by decide +kernel⟩

/-- A saved state with a block pending, and another state of the same variant. -/
theorem witness_SaveThenRestoreGivesTheContextBack :
    (st toyR [5, 0, 0, 18446744069414584320] 2 []).Inv ∧
      (st toyR [1, 2, 3, 4] 1 [7]).variant = (st toyR [5, 0, 0, 18446744069414584320] 2 []).variant :=
  ⟨inv_of (by decide +kernel), rfl⟩

theorem witness_RestoreThenSaveAnswersTheSameBytes :
    ∃ t, exec (.restore (encElems [5, 0, 0, 18446744069414584320] ++ toLe64 2)) (st toyR [1, 2, 3, 4] 1 []) = .next t ∧
      t.tx = (st toyR [1, 2, 3, 4] 1 []).tx ++ responseFrame .ok [] :=
  ⟨_, rfl, by decide +kernel⟩

/-- The largest element, as both operands and against 0. -/
theorem witness_FieldOperationsAreExact :
    (18446744069414584320 : Word).toNat < toyR.cfg.p ∧ (0 : Word).toNat < toyR.cfg.p ∧
      (18446744069414584320 : Word).toNat ≤ (18446744069414584320 : Word).toNat ∧ ¬ (18446744069414584320 : Word).toNat ≤ (0 : Word).toNat := by
  decide +kernel

theorem witness_InverseSboxUndoesTheSbox : (18446744069414584320 : Word).toNat < toyR.cfg.p ∧ (0 : Word).toNat < (toyF .none).cfg.p := by
  decide +kernel

/-- `P` is refused, `P - 1` is not. -/
theorem witness_ElementCodecRoundTrip :
    (18446744069414584320 : Word).toNat < toyR.cfg.p ∧ ((toLe64 toyP).length = 8 ∧ toyR.cfg.p ≤ le64 (toLe64 toyP)) ∧
      ((toLe64 (toyP - 1)).length = 8 ∧ le64 (toLe64 (toyP - 1)) < toyR.cfg.p) := by decide +kernel

theorem witness_MdsMulIsTheNaiveProduct :
    [(1 : Word), 2, 3, 4].length = toyR.cfg.mdsSide ∧ 3 < toyR.cfg.mdsSide ∧ [(1 : Word), 2].length = (toyF .none).cfg.mdsSide := by
  decide

theorem witness_PermuteRunsItsRoundsInOrder :
    [(1 : Word), 2, 3, 4].length = toyR.cfg.sw ∧
      toyR.cfg.family = .rescue [[100, 101, 102, 103], [200, 201, 202, 203]] [[1000, 1001, 1002, 1003], [2000, 2001, 2002, 2003]] ∧
      [(1 : Word), 2, 3, 4].length = (toyF .copyLastFromFirst).cfg.sw ∧
      (toyF .copyLastFromFirst).cfg.family =
        .flystel 7 2635249152773512046 [[10, 11], [20, 21]] [[20, 21], [40, 41]] .copyLastFromFirst ∧
      1 < (toyF .copyLastFromFirst).cfg.nr ∧ 1 < (toyF .copyLastFromFirst).cfg.nc := by decide

theorem witness_RescueRoundInTheField :
    toyR.cfg.family = .rescue [[100, 101, 102, 103], [200, 201, 202, 203]] [[1000, 1001, 1002, 1003], [2000, 2001, 2002, 2003]] ∧
      [(1 : Word), 2, 3, 4].length = toyR.cfg.sw ∧ 1 < toyR.cfg.nr ∧ 3 < toyR.cfg.sw := by decide

/-- Both values of `Y_PRE`, the last round and the last column. -/
theorem witness_FlystelRoundActsOnItsColumns :
    ((toyF .none).cfg.family = .flystel 7 2635249152773512046 [[10, 11], [20, 21]] [[20, 21], [40, 41]] .none ∧
        [(1 : Word), 2, 3, 4].length = (toyF .none).cfg.sw ∧ 1 < (toyF .none).cfg.nr ∧ 1 < (toyF .none).cfg.nc) ∧
      (toyF .copyLastFromFirst).cfg.family =
        .flystel 7 2635249152773512046 [[10, 11], [20, 21]] [[20, 21], [40, 41]] .copyLastFromFirst := by decide

theorem witness_CopyMakesPermuteForgetItsLastInput :
    (toyF .copyLastFromFirst).cfg.family =
        .flystel 7 2635249152773512046 [[10, 11], [20, 21]] [[20, 21], [40, 41]] .copyLastFromFirst ∧
      2 ≤ (toyF .copyLastFromFirst).cfg.nc ∧ [(1 : Word), 2, 3, 4].length = (toyF .copyLastFromFirst).cfg.sw := by decide

end Sys2Proof.Tests
end

section
/-! PROOFS. The statements of 10_state.md: what a step can do, said once, and from it the invariant, what a step reads, and
what each command leaves unchanged. -/

namespace Sys2Proof.Machine

/-! ## All that a step can do

Laws/Effect.lean says what a command can do; a step only adds the two ways of taking no command, a reserved opcode (R67) and a
frame that is not whole yet (R65). -/

/-- The effect of what the decoder found, and the bytes it leaves; none while the engine waits (R65). -/
def frameEffect (c : Cfg) (sp : Sponge) : Decoded → Option (Effect × List Byte)
  | .instr i rest => some (effect c sp i, rest)
  | .reserved _ rest => some (errorEffect .illegalCommand, rest)
  | .incomplete => none

theorem step_of_frameEffect_none {s : State} (h : frameEffect s.cfg s.context (decode s.rx) = none) :
    step s = .next s := by
  cases hd : decode s.rx with
  | instr i rest => simp [hd, frameEffect] at h
  | reserved op rest => simp [hd, frameEffect] at h
  | incomplete => rw [step, hd]

theorem step_of_frameEffect_some {s : State} {e : Effect} {rest : List Byte}
    (h : frameEffect s.cfg s.context (decode s.rx) = some (e, rest)) :
    step s = .next (e.apply (s.setRx rest)) := by
  cases hd : decode s.rx with
  | instr i rest' =>
    rw [hd] at h
    cases h
    exact step_of_decode hd
  | reserved op rest' =>
    rw [hd] at h
    cases h
    rw [step, hd, apply_errorEffect]
  | incomplete =>
    rw [hd] at h
    cases h

/-- A good context stays good, whatever the decoder found (R21, R27). -/
theorem frameEffect_context_ok (v : Variant) {sp : Sponge} (hs : sp.Ok v.cfg) {d : Decoded} {e : Effect}
    {rest : List Byte} (h : frameEffect v.cfg sp d = some (e, rest)) : (e.ctx.getD sp).Ok v.cfg := by
  cases d with
  | instr i rest' =>
    cases h
    exact effect_context_ok v hs i
  | reserved op rest' =>
    cases h
    exact hs
  | incomplete => cases h

/-- An effect that would leave a good context leaves a state with the invariant. -/
theorem apply_inv {e : Effect} {s : State} (h : (e.ctx.getD s.context).Ok s.cfg) : (e.apply s).Inv := by
  rw [Inv_iff, apply_context, State.cfg, apply_variant]
  exact h

/-- Settles O11: a step either waits or applies an effect, and an effect keeps a good context. -/
theorem everyStepKeepsTheInvariant : Obligations.EveryStepKeepsTheInvariant := by
  intro s t hs hstep
  cases hf : frameEffect s.cfg s.context (decode s.rx) with
  | none =>
    rw [step_of_frameEffect_none hf] at hstep
    cases hstep
    exact ⟨hs, rfl⟩
  | some er =>
    obtain ⟨e, rest⟩ := er
    rw [step_of_frameEffect_some hf] at hstep
    cases hstep
    have hctx : (e.ctx.getD s.context).Ok s.cfg := frameEffect_context_ok s.variant ((Inv_iff s).1 hs) hf
    exact ⟨apply_inv hctx, apply_variant e _⟩

/-- Settles O12: both states have the same effect, because it is computed from the configuration, the context and the received
bytes; applying it writes the context from those alone, and appends the one response. -/
theorem stepReadsOnlyTheContext : Obligations.StepReadsOnlyTheContext := by
  intro s₁ s₂ hv hS hIDX hrx
  have hctx : s₁.context = s₂.context := by rw [State.context, State.context, hS, hIDX]
  have heff : frameEffect s₁.cfg s₁.context (decode s₁.rx) = frameEffect s₂.cfg s₂.context (decode s₂.rx) := by
    rw [State.cfg, State.cfg, hv, hctx, hrx]
  cases hf : frameEffect s₁.cfg s₁.context (decode s₁.rx) with
  | none =>
    exact ⟨s₁, s₂, [], step_of_frameEffect_none hf, step_of_frameEffect_none (heff ▸ hf), hv, hS, hIDX, hrx,
      (List.append_nil _).symm, (List.append_nil _).symm⟩
  | some er =>
    obtain ⟨e, rest⟩ := er
    refine ⟨_, _, responseFrame e.st e.payload, step_of_frameEffect_some hf, step_of_frameEffect_some (heff ▸ hf), ?_⟩
    simp [hv, hctx]

/-! ## The decoded command, and reset -/

/-- Settles O4: `step` hands the state to `exec` with only the frame taken off the received bytes. -/
theorem stepRunsTheDecodedCommand : Obligations.StepRunsTheDecodedCommand := by
  intro s i rest hd
  refine ⟨?_, rfl⟩
  rw [step, hd]

theorem resetOf_inv (v : Variant) : (State.resetOf v).Inv := fresh_ok v

/-- Settles O10: nothing has been received after reset, so the engine waits. -/
theorem resetMeetsTheInvariant : Obligations.ResetMeetsTheInvariant := by
  refine ⟨fun v => ⟨rfl, fun i => ?_, rfl, step_of_frameEffect_none rfl, resetOf_inv v⟩, rfl, resetOf_inv _⟩
  rw [resetOf_S, List.getElem?_replicate]

/-! ## What each command leaves unchanged -/

/-- The commands that may write `S` and `IDX` (R120, R123, R124, R125, R151). -/
def mayWriteContext : Instr → Bool
  | .new _ | .absorb _ | .absorbf _ | .finalize _ | .restore _ => true
  | .save _ | .hash _ | .hashf _ | .merge _ | .permute _ => false

/-- The commands that may use the scratch state (R30). -/
def mayUseScratch : Instr → Bool
  | .hash _ | .hashf _ | .merge _ | .permute _ => true
  | .new _ | .absorb _ | .absorbf _ | .finalize _ | .save _ | .restore _ => false

theorem effect_ctx_of_not_mayWriteContext (c : Cfg) (sp : Sponge) {i : Instr} (h : mayWriteContext i = false) :
    (effect c sp i).ctx = none := by
  cases i with
  | new b | absorb b | absorbf b | finalize b | restore b => cases h
  | hash b => rfl
  | save b => simp only [effect]; split <;> rfl
  | hashf b | merge b | permute b =>
    simp only [effect]
    split
    · rfl
    · split <;> rfl

theorem effect_scratch_of_not_mayUseScratch (c : Cfg) (sp : Sponge) {i : Instr} (h : mayUseScratch i = false) :
    (effect c sp i).scratch = false := by
  cases i with
  | hash b | hashf b | merge b | permute b => cases h
  | absorb b => rfl
  | new b | finalize b | save b => simp only [effect]; split <;> rfl
  | absorbf b =>
    simp only [effect]
    split
    · rfl
    · split <;> rfl
  | restore b =>
    simp only [effect]
    split
    · rfl
    · split
      · rfl
      · split <;> rfl

theorem apply_scratchUses (e : Effect) (s : State) :
    (e.apply s).scratchUses = if e.scratch then s.leaveScratch.scratchUses else s.scratchUses := by
  cases h : e.scratch <;> simp [Effect.apply, h]

/-- A command that may not write the context leaves `S` and `IDX` as they are. -/
theorem effect_apply_keeps_context (s : State) {i : Instr} (h : mayWriteContext i = false) :
    ((effect s.cfg s.context i).apply s).S = s.S ∧ ((effect s.cfg s.context i).apply s).IDX = s.IDX := by
  simp [effect_ctx_of_not_mayWriteContext s.cfg s.context h]

/-- A command that may not use the scratch state leaves `T`, `j` and the counter as they are. -/
theorem effect_apply_keeps_scratch (s : State) {i : Instr} (h : mayUseScratch i = false) :
    ((effect s.cfg s.context i).apply s).T = s.T ∧ ((effect s.cfg s.context i).apply s).j = s.j ∧
      ((effect s.cfg s.context i).apply s).scratchUses = s.scratchUses := by
  simp [apply_T, apply_j, apply_scratchUses, effect_scratch_of_not_mayUseScratch s.cfg s.context h]

/-- Settles O14: which of the two, the context and the scratch state, a command may write is read off its effect. -/
theorem commandsWriteOnlyTheirRegisters : Obligations.CommandsWriteOnlyTheirRegisters := by
  intro i s
  refine ⟨_, exec_eq_apply i s, apply_variant _ s, apply_rx _ s, ⟨_, apply_tx _ s⟩, ?_⟩
  cases i with
  | new b | absorb b | absorbf b | finalize b | restore b => exact effect_apply_keeps_scratch s rfl
  | save b =>
    obtain ⟨hS, hIDX⟩ := effect_apply_keeps_context s (i := .save b) rfl
    exact ⟨hS, hIDX, effect_apply_keeps_scratch s rfl⟩
  | hash b | hashf b | merge b | permute b => exact effect_apply_keeps_context s rfl

end Sys2Proof.Machine
end

section
/-! PROOFS. The statement of 20_memory.md: a frame's effect does not depend on the bytes behind it. -/

namespace Sys2Proof.Machine

/-- The effect of a whole frame is fixed by its opcode and payload; the bytes behind it are left as they are (R50, R61). -/
theorem exists_effect_of_commandFrame (c : Cfg) (sp : Sponge) (op : Byte) {payload : List Byte}
    (h : payload.length < 2 ^ 64) :
    ∃ e, ∀ rest, frameEffect c sp (decode (commandFrame op payload ++ rest)) = some (e, rest) := by
  cases hi : instrOf op payload with
  | some i => exact ⟨effect c sp i, fun rest => by simp only [decode_commandFrame op payload rest h, hi, frameEffect]⟩
  | none =>
    exact ⟨errorEffect .illegalCommand, fun rest => by
      simp only [decode_commandFrame op payload rest h, hi, frameEffect]⟩

/-- No effect looks at the received bytes: it may be applied before or after they are replaced. -/
theorem apply_setRx (e : Effect) (s : State) (b : List Byte) : e.apply (s.setRx b) = (e.apply s).setRx b := by
  cases h : e.scratch <;> simp only [Effect.apply, h] <;> rfl

/-- Bytes sent behind the remaining ones may be sent before or after the frame in front takes effect (R183). -/
theorem apply_hostSend (e : Effect) (s : State) (more : List Byte) :
    e.apply (s.hostSend more) = (e.apply s).hostSend more := by
  rw [State.hostSend, apply_setRx, State.hostSend, apply_rx]

/-- Settles O6: with or without the later bytes the frame has the same effect, and applying it commutes with their arrival. -/
theorem laterBytesDoNotChangeAFrame : Obligations.LaterBytesDoNotChangeAFrame := by
  intro s more hwhole
  obtain ⟨op, payload, rest, hrx, hlen⟩ := decode_split hwhole
  obtain ⟨e, he⟩ := exists_effect_of_commandFrame s.cfg s.context op hlen
  have hnow : frameEffect s.cfg s.context (decode s.rx) = some (e, rest) := by rw [hrx, he]
  have hlater : frameEffect s.cfg s.context (decode (s.rx ++ more)) = some (e, rest ++ more) := by
    rw [hrx, List.append_assoc, he]
  refine ⟨e.apply (s.setRx rest), step_of_frameEffect_some hnow, ?_⟩
  calc step (s.hostSend more)
      = .next (e.apply ((s.setRx rest).hostSend more)) := step_of_frameEffect_some (s := s.hostSend more) hlater
    _ = .next ((e.apply (s.setRx rest)).hostSend more) := by rw [apply_hostSend]

end Sys2Proof.Machine
end

section
/-! PROOFS. The statements of 30_encoding.md: decoder and encoder are inverse, when the engine waits, and which frames it
refuses. -/

namespace Sys2Proof

/-! ## The decoder on whole frames -/

/-- A whole frame whose opcode selects a command is that command (R64). -/
theorem decode_commandFrame_of_some {op : Byte} {payload : List Byte} {i : Instr} (hlen : payload.length < 2 ^ 64)
    (hi : instrOf op payload = some i) (rest : List Byte) : decode (commandFrame op payload ++ rest) = .instr i rest := by
  rw [decode_commandFrame op payload rest hlen, hi]

/-- A whole frame whose opcode selects none is reserved (R67). -/
theorem decode_commandFrame_of_none {op : Byte} {payload : List Byte} (hlen : payload.length < 2 ^ 64)
    (hi : instrOf op payload = none) (rest : List Byte) :
    decode (commandFrame op payload ++ rest) = .reserved op rest := by
  rw [decode_commandFrame op payload rest hlen, hi]

theorem encodable_iff {i : Instr} : i.encodable = true ↔ i.payload.length < 2 ^ 64 := by simp [Instr.encodable]

/-- Settles O1: a command's frame is a whole frame, and its opcode selects the command. -/
theorem decodeOfEncodeIsTheCommand : Obligations.DecodeOfEncodeIsTheCommand := by
  intro i rest hi
  exact decode_commandFrame_of_some (encodable_iff.1 hi) (instrOf_opcodeOf i) rest

/-- Settles O2: the decoder takes whole frames only, and the opcode map gives a command for no opcode but its own. -/
theorem decodedBytesAreTheEncodedFrame : Obligations.DecodedBytesAreTheEncodedFrame := by
  intro bytes i rest hd
  obtain ⟨op, payload, rest', rfl, hlen⟩ := decode_split (bytes := bytes) (by simp [hd])
  cases hi : instrOf op payload with
  | some i' =>
    rw [decode_commandFrame_of_some hlen hi] at hd
    cases hd
    obtain ⟨rfl, rfl⟩ := opcodeOf_of_instrOf hi
    exact ⟨rfl, encodable_iff.2 hlen⟩
  | none =>
    rw [decode_commandFrame_of_none hlen hi] at hd
    cases hd

/-! ## Waiting for the rest of a frame -/

/-- The `LEN` field of a frame holds the number of its payload bytes (R61, R90). -/
theorem le64_len_field {payload : List Byte} (hlen : payload.length < 2 ^ 64) (op : Byte) (rest : List Byte) :
    le64 (((commandFrame op payload ++ rest).drop 1).take 8) = payload.length := by
  have h8 : ((commandFrame op payload ++ rest).drop 1).take 8 = toLe64 payload.length := by simp [commandFrame]
  rw [h8, le64_toLe64 hlen]

/-- Bytes that the decoder takes hold `9 + LEN` bytes, so fewer are no frame yet (R65). -/
theorem decode_incomplete_of_short {bytes : List Byte}
    (h : bytes.length < 9 ∨ bytes.length < 9 + le64 ((bytes.drop 1).take 8)) : decode bytes = .incomplete := by
  by_contra hwhole
  obtain ⟨op, payload, rest, rfl, hlen⟩ := decode_split hwhole
  rw [le64_len_field hlen, List.length_append, commandFrame_length] at h
  omega

namespace Machine

/-- Settles O5: the decoder finds no frame yet. -/
theorem stepWaitsForTheRestOfAFrame : Obligations.StepWaitsForTheRestOfAFrame := by
  intro s hshort
  rw [step, decode_incomplete_of_short hshort]

end Machine

/-! ## Reserved opcodes and illegal lengths -/

/-- The ten opcodes of the map (R64). -/
def definedOpcodes : List Byte := [0x01, 0x02, 0x03, 0x04, 0x05, 0x06, 0x10, 0x11, 0x12, 0x20]

theorem opcodeOf_mem_definedOpcodes (i : Instr) : opcodeOf i ∈ definedOpcodes := by
  cases i <;> simp only [opcodeOf] <;> decide

/-- Every defined opcode has its command, with any payload: `LEN` plays no part in the choice (R64). -/
theorem exists_command_of_mem_definedOpcodes {op : Byte} (h : op ∈ definedOpcodes) (payload : List Byte) :
    ∃ i, opcodeOf i = op ∧ i.payload = payload := by
  simp only [definedOpcodes, List.mem_cons, List.not_mem_nil, or_false] at h
  obtain rfl | rfl | rfl | rfl | rfl | rfl | rfl | rfl | rfl | rfl := h
  · exact ⟨.new payload, rfl, rfl⟩
  · exact ⟨.absorb payload, rfl, rfl⟩
  · exact ⟨.absorbf payload, rfl, rfl⟩
  · exact ⟨.finalize payload, rfl, rfl⟩
  · exact ⟨.save payload, rfl, rfl⟩
  · exact ⟨.restore payload, rfl, rfl⟩
  · exact ⟨.hash payload, rfl, rfl⟩
  · exact ⟨.hashf payload, rfl, rfl⟩
  · exact ⟨.merge payload, rfl, rfl⟩
  · exact ⟨.permute payload, rfl, rfl⟩

/-- Every other opcode is reserved (R67). -/
theorem instrOf_eq_none_of_not_mem {op : Byte} (h : op ∉ definedOpcodes) (payload : List Byte) :
    instrOf op payload = none := by
  cases hi : instrOf op payload with
  | none => rfl
  | some i =>
    obtain ⟨rfl, -⟩ := opcodeOf_of_instrOf hi
    exact absurd (opcodeOf_mem_definedOpcodes i) h

namespace Machine

/-- Every command checks `LEN` before anything else (R65, R67, R165). -/
theorem effect_of_lenIllegal {c : Cfg} {i : Instr} (h : i.lenLegal c = false) (sp : Sponge) :
    effect c sp i = errorEffect .illegalCommand := by
  cases i with
  | absorb b | hash b => cases h
  | new b | finalize b | save b | absorbf b | hashf b | restore b | merge b | permute b =>
    rw [effect, if_pos (by simpa [Instr.lenLegal] using h)]

/-- Hence a command with an illegal `LEN` does nothing but answer `IllegalCommand` (R67). -/
theorem exec_of_lenIllegal {s : State} {i : Instr} (h : i.lenLegal s.cfg = false) :
    exec i s = .next (raise .illegalCommand s) := by
  rw [exec_eq_apply, effect_of_lenIllegal h, apply_errorEffect]

/-- Settles O7: the opcode alone decides between a reserved frame and a command; the command's own check of `LEN` does the rest. -/
theorem reservedOpcodeOrIllegalLenIsRefusedWhole : Obligations.ReservedOpcodeOrIllegalLenIsRefusedWhole := by
  intro s op payload rest hlen hrx
  constructor
  · intro hop
    rw [step, hrx, decode_commandFrame_of_none hlen (instrOf_eq_none_of_not_mem hop payload)]
    rfl
  · intro hop
    obtain ⟨i, rfl, rfl⟩ := exists_command_of_mem_definedOpcodes hop payload
    have hstep : step s = exec i (s.setRx rest) := step_encode hlen hrx
    exact ⟨i, rfl, rfl, fun hillegal => hstep.trans (exec_of_lenIllegal hillegal), fun _ => hstep⟩

end Machine

/-! ## Frames of the test vectors -/

/-- Settles O3: the first three are the frames of their commands, the fourth is cut off behind its header, and the opcode of the
last is reserved. -/
theorem writtenFramesDecode : Obligations.WrittenFramesDecode :=
  ⟨decodeOfEncodeIsTheCommand (.new []) [] rfl,
    decodeOfEncodeIsTheCommand (.hash [0x61, 0x62, 0x63]) [] rfl,
    decodeOfEncodeIsTheCommand (.merge [5, 0, 0, 0, 0, 0, 0, 0, 6, 0, 0, 0, 0, 0, 0, 0]) [] rfl,
    decode_incomplete_of_short (by decide),
    decode_commandFrame_of_none (op := 0x00) (payload := [0x78, 0x79, 0x7a]) (by decide) rfl [0x05]⟩

end Sys2Proof
end

section
/-! PROOFS. The statements of 40_field_codec.md: the field operations are exact, the S-boxes are inverse to each other, and
the element codec and the byte chunks spell the integers the spec gives. -/

namespace Sys2Proof

/-! ## Base-256 digits -/

/-- Byte `k` of the little-endian bytes of `n` is base-256 digit `k` of `n` (R41, R89). -/
theorem leBytes_getD_toNat {m k : Nat} (hk : k < m) (n : Nat) :
    ((leBytes m n).getD k 0).toNat = n / 256 ^ k % 256 := by
  induction m generalizing k n with
  | zero => omega
  | succ m ih =>
    cases k with
    | zero => simp [leBytes]
    | succ k =>
      calc ((leBytes (m + 1) n).getD (k + 1) 0).toNat
          = ((leBytes m (n / 256)).getD k 0).toNat := by rw [leBytes, List.getD_cons_succ]
        _ = n / 256 / 256 ^ k % 256 := ih (by omega) _
        _ = n / 256 ^ (k + 1) % 256 := by rw [Nat.div_div_eq_div_mul, pow_succ']

namespace Machine

/-! ## The inverse exponents -/

section
variable {c : Cfg} (h : c.WellFormed)
include h

/-- A power of a power is the power to the product of the exponents (R86). -/
theorem fpow_fpow_toNat (a : Word) (d e : Nat) : (fpow c (fpow c a d) e).toNat = a.toNat ^ (d * e) % c.p := by
  rw [fpow_toNat h, fpow_toNat h, ← Nat.pow_mod, ← pow_mul]

/-- W5 and Fermat's little theorem: raising to `ALPHA * ALPHA_INV` changes nothing modulo `P` (R87; 93 G2). -/
theorem pow_alpha_mul_alphaInv_mod (n : Nat) : n ^ (c.alpha * c.alphaInv) % c.p = n % c.p := by
  have hdvd : c.p - 1 ∣ c.alpha * c.alphaInv - 1 := by
    simpa only [h.alpha_mul] using Nat.dvd_sub_mod (n := c.p - 1) (c.alpha * c.alphaInv)
  have hpos : 1 ≤ c.alpha * c.alphaInv := Nat.mul_pos h.alpha_pos h.alphaInv_pos
  have hpow := Int.ModEq.pow_eq_pow h.prime hdvd hpos one_pos (n : Int)
  rw [pow_one] at hpow
  exact Int.natCast_modEq_iff.1 (by exact_mod_cast hpow)

/-- Two exponents whose product is that of the S-boxes undo each other on a canonical element (R87). -/
theorem fpow_fpow_of_mul_eq {d e : Nat} (hde : d * e = c.alpha * c.alphaInv) {a : Word} (ha : a.toNat < c.p) :
    fpow c (fpow c a d) e = a := by
  apply BitVec.eq_of_toNat_eq
  rw [fpow_fpow_toNat h, hde, pow_alpha_mul_alphaInv_mod h, Nat.mod_eq_of_lt ha]

/-! ## Subtraction without and with a borrow -/

/-- A canonical difference that needs no borrow is the difference of the integers (R82). -/
theorem fsub_toNat_of_le {a b : Word} (ha : a.toNat < c.p) (hba : b.toNat ≤ a.toNat) :
    (fsub c a b).toNat = a.toNat - b.toNat := by
  have hsub := fsub_toNat h a b
  rw [Int.emod_eq_of_lt (by omega) (by omega)] at hsub
  omega

/-- A canonical difference that needs a borrow is the difference with `P` added once (R82). -/
theorem fsub_toNat_of_lt {a b : Word} (hb : b.toNat < c.p) (hab : a.toNat < b.toNat) :
    (fsub c a b).toNat = a.toNat + c.p - b.toNat := by
  have hsub := fsub_toNat h a b
  rw [Int.emod_eq_add_self_emod, Int.emod_eq_of_lt (by omega) (by omega)] at hsub
  omega

/-! ## Decoding within the field -/

/-- Below `P`, decoding answers an element and encoding gives its bytes back (R91). -/
theorem exists_dec8_of_lt {b : List Byte} (hlen : b.length = 8) (hb : le64 b < c.p) :
    ∃ a, dec8 c b = some a ∧ a.toNat = le64 b ∧ enc8 a = b := by
  obtain ⟨a, ha⟩ := Option.isSome_iff_exists.1 ((dec8_isSome_iff c b).2 hb)
  obtain ⟨hval, -⟩ := dec8_some h ha
  exact ⟨a, ha, hval, by rw [enc8_eq_toLe64, hval, toLe64_le64 hlen]⟩

/-- The element of a chunk is the integer its buffer spells (R92). -/
theorem chunkToField_toNat {chunk : List Byte} (hc : chunk.length ≤ 7) (last : Bool) :
    (chunkToField c chunk last).toNat = le64 (chunkBuf chunk last) := (dec8_some h (dec8_chunkBuf h hc)).1

end

/-! ## The statements -/

/-- Settles O22: the element is what the chunk's buffer spells, whose marker byte stands just above the chunk's own bytes. -/
theorem chunkElementIsBytesPlusMarker : Obligations.ChunkElementIsBytesPlusMarker := by
  intro v chunk last _ hle _
  exact ⟨(chunkToField_toNat v.wf hle last).trans (le64_chunkBuf chunk last), chunkToField_lt v.wf hle⟩

/-- Settles O39: sum and product are reduced exactly, and the difference needs a borrow or none. -/
theorem fieldOperationsAreExact : Obligations.FieldOperationsAreExact := by
  intro v a b ha hb
  refine ⟨fadd_toNat v.wf a b, ?_, fmul_toNat v.wf a b⟩
  split
  case isTrue hba => exact fsub_toNat_of_le v.wf ha hba
  case isFalse hba => exact fsub_toNat_of_lt v.wf hb (by omega)

/-- Settles O40: square-and-multiply answers the reduced power, and one more factor may be reduced on its own. -/
theorem powerIsRepeatedMultiplication : Obligations.PowerIsRepeatedMultiplication := by
  intro v a
  constructor
  · apply BitVec.eq_of_toNat_eq
    rw [fpow_toNat v.wf, pow_zero, Nat.mod_eq_of_lt v.wf.one_lt_p]
    rfl
  · intro e
    apply BitVec.eq_of_toNat_eq
    rw [fmul_toNat v.wf, fpow_toNat v.wf, fpow_toNat v.wf, pow_succ, Nat.mod_mul_mod]

/-- Settles O41: in either order the two exponents multiply to `ALPHA * ALPHA_INV`. -/
theorem inverseSboxUndoesTheSbox : Obligations.InverseSboxUndoesTheSbox := by
  intro v a ha
  exact ⟨fpow_fpow_of_mul_eq v.wf rfl ha, fpow_fpow_of_mul_eq v.wf (mul_comm _ _) ha⟩

/-- Settles O42: the digits of `enc8`, and the three facts about `dec8` on integers below `P` and from `P` up. -/
theorem elementCodecRoundTrip : Obligations.ElementCodecRoundTrip := by
  intro v
  refine ⟨?digits, ?decode_encode, ?refused, ?encode_decode⟩
  case digits => exact fun a k hk => leBytes_getD_toNat hk a.toNat
  case decode_encode => exact fun a ha => dec8_enc8' ha
  case refused => exact fun b _ hb => (dec8_eq_none_iff v.cfg b).2 hb
  case encode_decode => exact fun b hlen hb => exists_dec8_of_lt v.wf hlen hb

end Machine

end Sys2Proof
end

section
/-! PROOFS. The statements of 41_permutation.md: lane `i` of every layer of the permutation as a formula in the lanes of its
input, the same over the field, and from these the rounds of both families. -/

namespace Sys2Proof.Machine

variable {c : Cfg}

/-! ## The lanes of each layer -/

/-- The sum over two zipped vectors is the sum over their common index (R101). -/
theorem sum_zipWith_mul_eq_sum_range {row v : List Word} (hlen : row.length = v.length) :
    (List.zipWith (fun m x => m.toNat * x.toNat) row v).sum =
      ∑ k ∈ Finset.range v.length, (row.getD k 0).toNat * (v.getD k 0).toNat := by
  induction row generalizing v with
  | nil =>
    obtain rfl : v = [] := List.length_eq_zero_iff.1 hlen.symm
    rfl
  | cons m row ih =>
    cases v with
    | nil => cases hlen
    | cons x v =>
      rw [List.zipWith_cons_cons, List.sum_cons, ih (Nat.succ.inj hlen), List.length_cons, Finset.sum_range_succ', add_comm]
      rfl

theorem mds_row_length (h : c.WellFormed) {i : Nat} (hi : i < c.mdsSide) : (c.mds.getD i []).length = c.mdsSide :=
  roundRow_length h.mds_fits hi

/-- One lane of the product with the variant's own matrix (R101). -/
theorem mdsMul_getD_toNat (h : c.WellFormed) {n i : Nat} (hn : c.mdsSide = n) {v : List Word} (hv : v.length = n)
    (hi : i < n) :
    ((mdsMul c c.mds v).getD i 0).toNat =
      (∑ k ∈ Finset.range n, ((c.mds.getD i []).getD k 0).toNat * (v.getD k 0).toNat) % c.p := by
  have hrow : (c.mds.getD i []).length = v.length := by rw [mds_row_length h (hn ▸ hi), hn, hv]
  have hlane : (mdsMul c c.mds v).getD i 0 = dotRow c (c.mds.getD i []) v := by
    have hi' : i < c.mds.length := by rw [mds_length h, hn]; exact hi
    simp [mdsMul, hi']
  rw [hlane, dotRow, fofNat_toNat h, sum_zipWith_mul_eq_sum_range hrow, hv]

/-- One lane of the constant injection (R103, R106). -/
theorem addConsts_getD {xs ks : List Word} {i : Nat} (hx : i < xs.length) (hk : i < ks.length) :
    (addConsts c xs ks).getD i 0 = fadd c (xs.getD i 0) (ks.getD i 0) := by
  simp [addConsts, hx, hk]

/-- Constants added to a vector of the row's length keep that length. -/
theorem addConsts_length_of_fits {n rows r : Nat} {t : Table} (ht : Table.fits c.p rows n t = true) (hr : r < rows)
    {xs : List Word} (hx : xs.length = n) : (addConsts c xs (roundRow t r)).length = n := by
  rw [addConsts_length, hx, roundRow_length ht hr, min_self]

/-- One lane of the constants of round `r` added to a vector of the row's length. -/
theorem addConsts_getD_of_fits {n rows r : Nat} {t : Table} (ht : Table.fits c.p rows n t = true) (hr : r < rows)
    {xs : List Word} (hx : xs.length = n) {i : Nat} (hi : i < n) :
    (addConsts c xs (roundRow t r)).getD i 0 = fadd c (xs.getD i 0) ((t.getD r []).getD i 0) :=
  addConsts_getD (hx ▸ hi) (by rw [roundRow_length ht hr]; exact hi)

/-- One lane of an entrywise map that keeps 0, as both S-boxes do (R103 steps 1 and 4). -/
theorem map_getD_of_map_zero {f : Word → Word} (hf : f 0 = 0) (x : List Word) (i : Nat) :
    (x.map f).getD i 0 = f (x.getD i 0) := by
  have hmap := List.getD_map x 0 (n := i) f
  rwa [hf] at hmap

/-- The `Y_PRE` step reads lane 0 for the last lane where the variant copies, every other lane from its own place (R107). -/
theorem yPreStep_getD (yPre : YPre) {y : List Word} (hy : y.length = c.nc) {k : Nat} (hk : k < c.nc) :
    (yPreStep c yPre y).getD k 0 = y.getD (if yPre = .copyLastFromFirst ∧ k = c.nc - 1 then 0 else k) 0 := by
  cases yPre with
  | none => simp [yPreStep]
  | copyLastFromFirst =>
    by_cases hlast : k = c.nc - 1
    · have hin : c.nc - 1 < y.length := by omega
      simp [yPreStep, hlast, hin]
    · simp [yPreStep, hlast, List.getElem?_set_ne (Ne.symm hlast)]

@[simp] theorem yPreStep_length (yPre : YPre) (y : List Word) : (yPreStep c yPre y).length = y.length := by
  cases yPre <;> simp [yPreStep]

theorem halves_fst_getD (x : List Word) {k : Nat} (hk : k < c.nc) : (halves c x).1.getD k 0 = x.getD k 0 := by
  simp [halves, hk]

theorem halves_snd_getD (x : List Word) (k : Nat) : (halves c x).2.getD k 0 = x.getD (c.nc + k) 0 := by
  simp [halves]

theorem joinHalves_getD_fst {xy : List Word × List Word} (h1 : xy.1.length = c.nc) {i : Nat} (hi : i < c.nc) :
    (joinHalves xy).getD i 0 = xy.1.getD i 0 := List.getD_append _ _ _ _ (h1 ▸ hi)

theorem joinHalves_getD_snd {xy : List Word × List Word} (h1 : xy.1.length = c.nc) (i : Nat) :
    (joinHalves xy).getD (c.nc + i) 0 = xy.2.getD i 0 := by
  rw [joinHalves, List.getD_append_right _ _ _ _ (by omega), h1, Nat.add_sub_cancel_left]

/-- The flystel layer acts column by column (R108). -/
theorem flystelSbox_getD (beta delta : Word) {xy : List Word × List Word} {i : Nat} (h1 : i < xy.1.length)
    (h2 : i < xy.2.length) :
    (flystelSbox c beta delta xy).1.getD i 0 = (flystelColumn c beta delta (xy.1.getD i 0) (xy.2.getD i 0)).1 ∧
      (flystelSbox c beta delta xy).2.getD i 0 = (flystelColumn c beta delta (xy.1.getD i 0) (xy.2.getD i 0)).2 := by
  simp [flystelSbox, h1, h2]

/-! ## The operations over the field -/

section
variable (h : c.WellFormed)
include h

theorem fadd_cast (a b : Word) : ((fadd c a b).toNat : ZMod c.p) = (a.toNat : ZMod c.p) + (b.toNat : ZMod c.p) := by
  rw [fadd_toNat h, ZMod.natCast_mod, Nat.cast_add]

theorem fmul_cast (a b : Word) : ((fmul c a b).toNat : ZMod c.p) = (a.toNat : ZMod c.p) * (b.toNat : ZMod c.p) := by
  rw [fmul_toNat h, ZMod.natCast_mod, Nat.cast_mul]

theorem fsq_cast (a : Word) : ((fsq c a).toNat : ZMod c.p) = (a.toNat : ZMod c.p) ^ 2 := by
  rw [fsq, fmul_cast h, sq]

theorem fsub_cast (a b : Word) : ((fsub c a b).toNat : ZMod c.p) = (a.toNat : ZMod c.p) - (b.toNat : ZMod c.p) := by
  have hsub := congrArg (Int.cast : Int → ZMod c.p) (fsub_toNat h a b)
  simpa using hsub

theorem fpow_cast (a : Word) (e : Nat) : ((fpow c a e).toNat : ZMod c.p) = (a.toNat : ZMod c.p) ^ e := by
  rw [fpow_toNat h, ZMod.natCast_mod, Nat.cast_pow]

theorem mdsMul_getD_cast {n i : Nat} (hn : c.mdsSide = n) {v : List Word} (hv : v.length = n) (hi : i < n) :
    (((mdsMul c c.mds v).getD i 0).toNat : ZMod c.p) =
      ∑ k ∈ Finset.range n, (((c.mds.getD i []).getD k 0).toNat : ZMod c.p) * ((v.getD k 0).toNat : ZMod c.p) := by
  rw [mdsMul_getD_toNat h hn hv hi, ZMod.natCast_mod, Nat.cast_sum]
  exact Finset.sum_congr rfl fun k _ => Nat.cast_mul _ _

/-- One lane of matrix and constants over the field: a rescue round does this twice (R103 steps 2, 3 and 5, 6). -/
theorem addConsts_mdsMul_getD_cast {n rows r i : Nat} {t : Table} (hn : c.mdsSide = n)
    (ht : Table.fits c.p rows n t = true) (hr : r < rows) {v : List Word} (hv : v.length = n) (hi : i < n) :
    (((addConsts c (mdsMul c c.mds v) (roundRow t r)).getD i 0).toNat : ZMod c.p) =
      ∑ k ∈ Finset.range n, (((c.mds.getD i []).getD k 0).toNat : ZMod c.p) * ((v.getD k 0).toNat : ZMod c.p) +
        (((t.getD r []).getD i 0).toNat : ZMod c.p) := by
  have hlen : (mdsMul c c.mds v).length = n := by rw [mdsMul_length, mds_length h, hn]
  rw [addConsts_getD_of_fits ht hr hlen hi, fadd_cast h, mdsMul_getD_cast h hn hv hi]

end

/-! ## The arrays between the rounds -/

/-- The array after the first `r` rounds `f` (R104, R110). -/
def arrayAfter (f : List Word → Nat → List Word) (x : List Word) (r : Nat) : List Word := (List.range r).foldl f x

theorem arrayAfter_zero (f : List Word → Nat → List Word) (x : List Word) : arrayAfter f x 0 = x := rfl

theorem arrayAfter_succ (f : List Word → Nat → List Word) (x : List Word) (r : Nat) :
    arrayAfter f x (r + 1) = f (arrayAfter f x r) r := by
  rw [arrayAfter, List.range_succ, List.foldl_concat, arrayAfter]

theorem permute_of_rescue {rc1 rc2 : Table} (hf : c.family = .rescue rc1 rc2) (x : List Word) :
    permute c x = arrayAfter (rescueRound c rc1 rc2) x c.nr := by
  rw [permute, hf]
  rfl

theorem permute_of_flystel {beta delta : Word} {cs ds : Table} {yPre : YPre}
    (hf : c.family = .flystel beta delta cs ds yPre) (x : List Word) :
    permute c x = joinHalves (diffuse c yPre (halves c (arrayAfter (flystelRound c beta delta cs ds yPre) x c.nr))) := by
  rw [permute, hf]
  rfl

/-! ## The matrix's side in each family, and the flystel halves -/

theorem mdsSide_of_rescue {rc1 rc2 : Table} (hf : c.family = .rescue rc1 rc2) : c.mdsSide = c.sw := by
  rw [Cfg.mdsSide, hf]

theorem mdsSide_of_flystel {beta delta : Word} {cs ds : Table} {yPre : YPre}
    (hf : c.family = .flystel beta delta cs ds yPre) : c.mdsSide = c.nc := by
  rw [Cfg.mdsSide, hf]

/-- The two halves of an array with the constants of round `r` added (R105, R106). -/
def flystelInjected (c : Cfg) (cs ds : Table) (x : List Word) (r : Nat) : List Word × List Word :=
  (addConsts c (halves c x).1 (roundRow cs r), addConsts c (halves c x).2 (roundRow ds r))

theorem flystelRound_eq (beta delta : Word) (cs ds : Table) (yPre : YPre) (x : List Word) (r : Nat) :
    flystelRound c beta delta cs ds yPre x r =
      joinHalves (flystelSbox c beta delta (diffuse c yPre (flystelInjected c cs ds x r))) := rfl

section
variable {beta delta : Word} {cs ds : Table} {yPre : YPre} (h : c.WellFormed)
  (hf : c.family = .flystel beta delta cs ds yPre)
include h hf

theorem halves_length {x : List Word} (hx : x.length = c.sw) :
    (halves c x).1.length = c.nc ∧ (halves c x).2.length = c.nc := by
  have heven := flystel_even h hf
  rw [halves, List.length_take, List.length_drop]
  omega

/-- One lane of each half after the diffusion, the `Y_PRE` step included (R107). -/
theorem diffuse_getD_toNat {xy : List Word × List Word} (h1 : xy.1.length = c.nc) (h2 : xy.2.length = c.nc) {i : Nat}
    (hi : i < c.nc) :
    ((diffuse c yPre xy).1.getD i 0).toNat =
        (∑ k ∈ Finset.range c.nc, ((c.mds.getD i []).getD k 0).toNat * (xy.1.getD k 0).toNat) % c.p ∧
      ((diffuse c yPre xy).2.getD i 0).toNat =
        (∑ k ∈ Finset.range c.nc, ((c.mds.getD i []).getD k 0).toNat *
          (xy.2.getD (if yPre = .copyLastFromFirst ∧ k = c.nc - 1 then 0 else k) 0).toNat) % c.p := by
  have hside := mdsSide_of_flystel hf
  refine ⟨mdsMul_getD_toNat h hside h1 hi, ?_⟩
  rw [diffuse, mdsMul_getD_toNat h hside (by rw [yPreStep_length, h2]) hi]
  congr 1
  refine Finset.sum_congr rfl fun k hk => ?_
  rw [yPreStep_getD yPre h2 (Finset.mem_range.1 hk)]

theorem arrayAfter_flystel_length {x : List Word} (hx : x.length = c.sw) (r : Nat) :
    (arrayAfter (flystelRound c beta delta cs ds yPre) x r).length = c.sw := by
  cases r with
  | zero => exact hx
  | succ r => rw [arrayAfter_succ, (flystelRound_keeps h hf _ r).1]

theorem flystelInjected_length {x : List Word} (hx : x.length = c.sw) {r : Nat} (hr : r < c.nr) :
    (flystelInjected c cs ds x r).1.length = c.nc ∧ (flystelInjected c cs ds x r).2.length = c.nc := by
  obtain ⟨hx1, hx2⟩ := halves_length h hf hx
  obtain ⟨hcs, hds⟩ := flystel_tables h hf
  exact ⟨addConsts_length_of_fits hcs hr hx1, addConsts_length_of_fits hds hr hx2⟩

/-- One lane of each half after the constants, from the array's own places (R105, R106). -/
theorem flystelInjected_getD_toNat {x : List Word} (hx : x.length = c.sw) {r k : Nat} (hr : r < c.nr) (hk : k < c.nc) :
    ((flystelInjected c cs ds x r).1.getD k 0).toNat =
        ((x.getD k 0).toNat + ((cs.getD r []).getD k 0).toNat) % c.p ∧
      ((flystelInjected c cs ds x r).2.getD k 0).toNat =
        ((x.getD (c.nc + k) 0).toNat + ((ds.getD r []).getD k 0).toNat) % c.p := by
  obtain ⟨hx1, hx2⟩ := halves_length h hf hx
  obtain ⟨hcs, hds⟩ := flystel_tables h hf
  rw [flystelInjected, addConsts_getD_of_fits hcs hr hx1 hk, addConsts_getD_of_fits hds hr hx2 hk, fadd_toNat h,
    fadd_toNat h, halves_fst_getD x hk, halves_snd_getD]
  exact ⟨rfl, rfl⟩

/-- Columns `i` of the two diffused halves become positions `i` and `NC + i` of the round's result (R108, R109). -/
theorem flystelRound_getD (x : List Word) (r : Nat) {i : Nat} (hi : i < c.nc) :
    let d := diffuse c yPre (flystelInjected c cs ds x r)
    (flystelRound c beta delta cs ds yPre x r).getD i 0 =
        (flystelColumn c beta delta (d.1.getD i 0) (d.2.getD i 0)).1 ∧
      (flystelRound c beta delta cs ds yPre x r).getD (c.nc + i) 0 =
        (flystelColumn c beta delta (d.1.getD i 0) (d.2.getD i 0)).2 := by
  intro d
  obtain ⟨hd1, hd2, -, -⟩ := diffuse_keeps h hf (flystelInjected c cs ds x r)
  have hs1 := (flystelSbox_keeps (beta := beta) (delta := delta) h d hd1 hd2).1
  rw [flystelRound_eq, joinHalves_getD_fst hs1 hi, joinHalves_getD_snd hs1]
  exact flystelSbox_getD beta delta (hd1 ▸ hi) (hd2 ▸ hi)

end

/-! ## The last lane under the copy -/

/-- The copy overwrites the last lane of `y` (R107; 90_conflicts.md C8). -/
theorem yPreStep_copy_set_last (hnc : 2 ≤ c.nc) (y : List Word) (e : Word) :
    yPreStep c .copyLastFromFirst (y.set (c.nc - 1) e) = yPreStep c .copyLastFromFirst y := by
  have hne : c.nc - 1 ≠ 0 := by omega
  simp [yPreStep, List.set_set, List.getElem?_set_ne hne]

theorem diffuse_copy_set_last (hnc : 2 ≤ c.nc) (x y : List Word) (e : Word) :
    diffuse c .copyLastFromFirst (x, y.set (c.nc - 1) e) = diffuse c .copyLastFromFirst (x, y) := by
  rw [diffuse, diffuse, yPreStep_copy_set_last hnc]

/-- The last lane of the array is the last lane of its `y` half (R105). -/
theorem halves_set_last (x : List Word) (e : Word) :
    halves c (x.set (c.nc + (c.nc - 1)) e) = ((halves c x).1, (halves c x).2.set (c.nc - 1) e) := by
  simp [halves, List.take_set_of_le, List.drop_set]

/-- Constants are added lane by lane: a changed lane of the vector changes that lane only. -/
theorem addConsts_set (xs ks : List Word) (k : Nat) (e : Word) :
    addConsts c (xs.set k e) ks = (addConsts c xs ks).set k (fadd c e (ks.getD k 0)) := by
  induction xs generalizing ks k with
  | nil => rfl
  | cons x xs ih =>
    cases ks with
    | nil => cases k <;> rfl
    | cons b ks =>
      cases k with
      | zero => rfl
      | succ k => exact congrArg (fadd c x b :: ·) (ih ks k)

/-- A round with the copy forgets the array's last lane (R106, R107; 90_conflicts.md C8). -/
theorem flystelRound_copy_set_last (hnc : 2 ≤ c.nc) (beta delta : Word) (cs ds : Table) (x : List Word) (e : Word)
    (r : Nat) :
    flystelRound c beta delta cs ds .copyLastFromFirst (x.set (c.nc + (c.nc - 1)) e) r =
      flystelRound c beta delta cs ds .copyLastFromFirst x r := by
  simp only [flystelRound, halves_set_last, addConsts_set, diffuse_copy_set_last hnc]

/-- `permute` with the copy forgets the array's last lane: the first round does, or the closing diffusion when there is no
round (R110; 90_conflicts.md C8). -/
theorem permuteFlystel_copy_set_last (hnc : 2 ≤ c.nc) (beta delta : Word) (cs ds : Table) (x : List Word) (e : Word) :
    permuteFlystel c beta delta cs ds .copyLastFromFirst (x.set (c.nc + (c.nc - 1)) e) =
      permuteFlystel c beta delta cs ds .copyLastFromFirst x := by
  rw [permuteFlystel, permuteFlystel]
  cases List.range c.nr with
  | nil => rw [List.foldl_nil, List.foldl_nil, halves_set_last, diffuse_copy_set_last hnc]
  | cons r rs => rw [List.foldl_cons, List.foldl_cons, flystelRound_copy_set_last hnc]

/-! ## The statements -/

/-- Settles O34: the two refusals and the answer are the cases of `execPermute`. -/
theorem permuteAnswersThePermutedState : Obligations.PermuteAnswersThePermutedState := by
  intro s
  refine ⟨?wrong_length, ?not_canonical, ?permuted⟩
  case wrong_length => exact fun b hlen => execPermute_illegal s b hlen
  case not_canonical => exact fun b hlen hbad => execPermute_invalid s b hlen (elemOperands_none.2 hbad)
  case permuted =>
    intro x hx hcanon
    have hlen : ∀ y : List Word, y.length = s.cfg.sw → (encElems y).length = s.cfg.sw * 8 := fun y hy => by
      rw [encElems_length, hy, mul_comm]
    have hops : elemOperands s.cfg (encElems x) s.cfg.sw = some x := hx ▸ elemOperands_encElems' s.cfg x hcanon
    exact ⟨execPermute_legal s _ (hlen x hx) hops, hlen _ (permute_ok s.variant.wf hx hcanon).1⟩

/-- Settles O43: each lane is the reduced sum of its row, of which there are as many as the vector has lanes. -/
theorem mdsMulIsTheNaiveProduct : Obligations.MdsMulIsTheNaiveProduct := by
  intro v x hx
  exact ⟨by rw [mdsMul_length, mds_length v.wf], fun i hi => mdsMul_getD_toNat v.wf rfl hx hi⟩

/-- Settles O44: the arrays between the rounds are `arrayAfter`; the closing diffusion's lanes are read off the last. -/
theorem permuteRunsItsRoundsInOrder : Obligations.PermuteRunsItsRoundsInOrder := by
  intro v x hx
  cases hf : v.cfg.family with
  | rescue rc1 rc2 =>
    refine ⟨arrayAfter (rescueRound v.cfg rc1 rc2) x, arrayAfter_zero _ x, ?_, nofun⟩
    rintro _ _ ⟨⟩
    exact ⟨fun r _ => arrayAfter_succ _ x r, permute_of_rescue hf x⟩
  | flystel beta delta cs ds yPre =>
    refine ⟨arrayAfter (flystelRound v.cfg beta delta cs ds yPre) x, arrayAfter_zero _ x, nofun, ?_⟩
    rintro _ _ _ _ _ ⟨⟩
    obtain ⟨hx1, hx2⟩ := halves_length v.wf hf (arrayAfter_flystel_length v.wf hf hx v.cfg.nr)
    obtain ⟨hlen1, hlen2, -, -⟩ := diffuse_keeps v.wf hf
      (halves v.cfg (arrayAfter (flystelRound v.cfg beta delta cs ds yPre) x v.cfg.nr))
    refine ⟨fun r _ => arrayAfter_succ _ x r, ?length, fun i hi => ?lanes⟩
    case length =>
      rw [permute_of_flystel hf, joinHalves, List.length_append, hlen1, hlen2, flystel_even v.wf hf]
    case lanes =>
      obtain ⟨hlane1, hlane2⟩ := diffuse_getD_toNat v.wf hf hx1 hx2 hi
      rw [permute_of_flystel hf, joinHalves_getD_fst hlen1 hi, joinHalves_getD_snd hlen1, hlane1, hlane2]
      simp only [halves_snd_getD, and_true]
      congr 1
      refine Finset.sum_congr rfl fun k hk => ?_
      rw [halves_fst_getD _ (Finset.mem_range.1 hk)]

/-- Settles O45: two half rounds, each an S-box and then matrix and constants. -/
theorem rescueRoundInTheField : Obligations.RescueRoundInTheField := by
  intro v rc1 rc2 x r i hf hx hr hi
  have hside := mdsSide_of_rescue hf
  obtain ⟨ht1, ht2⟩ := rescue_tables v.wf hf
  have hlen : (mdsMul v.cfg v.cfg.mds (x.map (sbox v.cfg))).length = v.cfg.sw := by
    rw [mdsMul_length, rescue_side v.wf hf]
  rw [rescueRound, addConsts_mdsMul_getD_cast v.wf hside ht2 hr
    (by rw [List.length_map, addConsts_length_of_fits ht1 hr hlen]) hi]
  congr 1
  refine Finset.sum_congr rfl fun k hk => ?_
  rw [map_getD_of_map_zero (finvSbox_zero v.wf), finvSbox, fpow_cast v.wf, addConsts_mdsMul_getD_cast v.wf hside ht1 hr
    (by rw [List.length_map, hx]) (Finset.mem_range.1 hk)]
  simp only [map_getD_of_map_zero (sbox_zero v.wf), sbox, fpow_cast v.wf]

/-- Settles O46: each field operation of the column is the operation of the field. -/
theorem flystelColumnInTheField : Obligations.FlystelColumnInTheField := by
  intro v beta delta x y
  simp only [flystelColumn, finvSbox, fadd_cast v.wf, fsub_cast v.wf, fmul_cast v.wf, fsq_cast v.wf, fpow_cast v.wf,
    and_self]

/-- Settles O47: lane by lane through constants, diffusion and flystel layer. -/
theorem flystelRoundActsOnItsColumns : Obligations.FlystelRoundActsOnItsColumns := by
  intro v beta delta cs ds yPre x r i hf hx hr hi
  obtain ⟨hlen1, hlen2⟩ := flystelInjected_length v.wf hf hx hr
  obtain ⟨hu, hw⟩ := diffuse_getD_toNat v.wf hf hlen1 hlen2 hi
  obtain ⟨hnewx, hnewy⟩ := flystelRound_getD v.wf hf x r hi
  exact ⟨fun k => ((flystelInjected v.cfg cs ds x r).1.getD k 0).toNat,
    fun k => ((flystelInjected v.cfg cs ds x r).2.getD k 0).toNat, _, _,
    fun _ hk => (flystelInjected_getD_toNat v.wf hf hx hr hk).1,
    fun _ hk => (flystelInjected_getD_toNat v.wf hf hx hr hk).2, hu, hw, hnewx, hnewy⟩

/-- Settles O48: the last input element is the last lane of `y`, which the copy overwrites before anything reads it. -/
theorem copyMakesPermuteForgetItsLastInput : Obligations.CopyMakesPermuteForgetItsLastInput := by
  intro v beta delta cs ds x e hf hnc _
  have heven := flystel_even v.wf hf
  have hlast : v.cfg.sw - 1 = v.cfg.nc + (v.cfg.nc - 1) := by omega
  rw [permute, permute, hf, hlast]
  exact permuteFlystel_copy_set_last hnc beta delta cs ds x e

end Sys2Proof.Machine
end

section
/-! PROOFS. The statements of 42_hasher.md: what absorbing does within a block and over its boundary, how FINALIZE closes a
block, which elements a byte input absorbs, and that HASHF is the streaming commands in one (43_oneshot.md R143). -/

namespace Sys2Proof.Machine

/-! ## The cursor while absorbing -/

section
variable {c : Cfg} (hrw : c.rw < 2 ^ 64)
include hrw

/-- A cursor below `RW` advances without wrapping (R27). -/
theorem cursor_add_one_toNat {k : Word} (hk : k.toNat < c.rw) : (k + 1).toNat = k.toNat + 1 := by
  bv_omega

/-- `absorb_elem` counts modulo `RW` (R121). -/
theorem absorbElem_k_toNat {sp : Sponge} (hk : sp.k.toNat < c.rw) (e : Word) :
    (absorbElem c sp e).k.toNat = (sp.k.toNat + 1) % c.rw := by
  rcases Nat.lt_or_eq_of_le (Nat.succ_le_of_lt hk) with hlt | hfull
  · rw [absorbElem_of_lt hrw hlt, Nat.mod_eq_of_lt hlt]
    exact cursor_add_one_toNat hrw hk
  · rw [absorbElem_of_eq hrw hfull, show sp.k.toNat + 1 = c.rw from hfull, Nat.mod_self]
    rfl

/-- The cursor after a list is advanced by the list's length, modulo `RW` (R121, R124). -/
theorem absorbAll_k_toNat {sp : Sponge} (hk : sp.k.toNat < c.rw) (es : List Word) :
    (absorbAll c sp es).k.toNat = (sp.k.toNat + es.length) % c.rw := by
  induction es generalizing sp with
  | nil => exact (Nat.mod_eq_of_lt hk).symm
  | cons e es ih =>
    have hk' := absorbElem_k_toNat hrw hk e
    rw [absorbAll_cons, ih (hk' ▸ Nat.mod_lt _ (by omega)), hk', Nat.mod_add_mod, List.length_cons]
    congr 1
    omega

/-- Elements that do not fill the block go to the positions from the cursor on, one each (R121, R24). -/
theorem absorbAll_getD_of_lt {sp : Sponge} {es : List Word} (hX : c.rw ≤ sp.X.length)
    (hk : sp.k.toNat + es.length < c.rw) (i : Nat) :
    (absorbAll c sp es).X.getD i 0 =
      if sp.k.toNat ≤ i ∧ i < sp.k.toNat + es.length then fadd c (sp.X.getD i 0) (es.getD (i - sp.k.toNat) 0)
      else sp.X.getD i 0 := by
  induction es generalizing sp with
  | nil =>
    rw [absorbAll_nil, List.length_nil, if_neg (by omega)]
  | cons e es ih =>
    rw [List.length_cons] at hk
    have hcursor : (sp.k + 1).toNat = sp.k.toNat + 1 := cursor_add_one_toNat hrw (by omega)
    rw [absorbAll_cons, absorbElem_of_lt hrw (by omega), ih (by simpa using hX) (by simp only [hcursor]; omega),
      List.length_cons]
    simp only [hcursor]
    rcases Nat.lt_trichotomy i sp.k.toNat with hlt | rfl | hgt
    · rw [if_neg (by omega), if_neg (by omega)]
      simp [List.getElem?_set_ne (Nat.ne_of_gt hlt)]
    · rw [if_neg (by omega), if_pos (by omega)]
      simp [show sp.k.toNat < sp.X.length by omega]
    · have hpos : i - sp.k.toNat = i - (sp.k.toNat + 1) + 1 := by omega
      rw [hpos, List.getD_cons_succ]
      simp only [List.getD_eq_getElem?_getD, List.getElem?_set_ne (Nat.ne_of_lt hgt)]
      exact if_congr (by omega) rfl rfl

end

/-! ## Filling and closing a block -/

/-- Adding zero at a position changes nothing, whether the position is there or not (R81). -/
theorem set_fadd_zero {c : Cfg} (h : c.WellFormed) {x : List Word} (hx : canonicalAll c.p x = true) (k : Nat) :
    x.set k (fadd c (x.getD k 0) 0) = x := by
  rcases Nat.lt_or_ge k x.length with hk | hk
  · have hlt : x[k].toNat < c.p := canonicalAll_iff.1 hx _ (List.getElem_mem hk)
    rw [List.getD_eq_getElem _ _ hk, fadd_zero h hlt, List.set_getElem_self]
  · exact List.set_eq_of_length_le hk

/-- One element and the zeros that fill the block: the element is added at the cursor, the zeros only advance it, and the
permutation runs once (R121, R125). -/
theorem absorbAll_cons_zeros_of_fills (v : Variant) {sp : Sponge} (hs : sp.Ok v.cfg) (e : Word) {n : Nat}
    (hn : sp.k.toNat + n + 1 = v.cfg.rw) :
    absorbAll v.cfg sp (e :: List.replicate n 0) =
      ⟨permute v.cfg (sp.X.set sp.k.toNat (fadd v.cfg (sp.X.getD sp.k.toNat 0) e)), 0⟩ := by
  induction n generalizing sp e with
  | zero => exact absorbElem_of_eq v.rw_lt_two_pow hn
  | succ n ih =>
    have hok := absorbElem_ok v e hs
    have ⟨_, hcanon, _⟩ := hok
    have ⟨_, _, hlt⟩ := hs
    have helem := absorbElem_of_lt (e := e) v.rw_lt_two_pow (show sp.k.toNat + 1 < v.cfg.rw by omega)
    have hk : (absorbElem v.cfg sp e).k.toNat = sp.k.toNat + 1 := by
      rw [absorbElem_k_toNat v.rw_lt_two_pow hlt, Nat.mod_eq_of_lt (by omega)]
    rw [List.replicate_succ, absorbAll_cons, ih hok 0 (by omega), set_fadd_zero v.wf hcanon, helem]

theorem finalizeContext_of_k_eq_zero {c : Cfg} {sp : Sponge} (hk : sp.k = 0) : finalizeContext c sp = sp := if_pos hk

theorem finalizeContext_of_k_ne_zero {c : Cfg} {sp : Sponge} (hk : sp.k ≠ 0) :
    finalizeContext c sp = ⟨padOne c sp, 0⟩ := if_neg hk

@[simp] theorem finalizeContext_k (c : Cfg) (sp : Sponge) : (finalizeContext c sp).k = 0 := by
  by_cases hk : sp.k = 0
  · rw [finalizeContext_of_k_eq_zero hk, hk]
  · rw [finalizeContext_of_k_ne_zero hk]

/-- A closed context stays as it is when it is closed again (R130). -/
@[simp] theorem finalizeContext_idem (c : Cfg) (sp : Sponge) :
    finalizeContext c (finalizeContext c sp) = finalizeContext c sp :=
  finalizeContext_of_k_eq_zero (finalizeContext_k c sp)

/-- Closing a pending block is absorbing `one` and the zeros that fill it (R125). -/
theorem absorbAll_one_zeros (v : Variant) {sp : Sponge} (hs : sp.Ok v.cfg) (hk : sp.k ≠ 0) :
    absorbAll v.cfg sp (1 :: List.replicate (v.cfg.rw - 1 - sp.k.toNat) 0) = finalizeContext v.cfg sp := by
  have ⟨_, _, hlt⟩ := hs
  rw [finalizeContext_of_k_ne_zero hk]
  exact absorbAll_cons_zeros_of_fills v hs fone (by omega)

theorem canonicalAll_one_zeros {c : Cfg} (h : c.WellFormed) (n : Nat) :
    canonicalAll c.p (1 :: List.replicate n 0) = true :=
  (canonicalAll_cons _ _ _).2 ⟨h.one_lt_p, canonicalAll_replicate_zero h n⟩

theorem canonicalAll_flatten {p : Nat} {parts : List (List Word)} (h : ∀ part ∈ parts, canonicalAll p part = true) :
    canonicalAll p parts.flatten = true := by
  rw [canonicalAll_iff]
  intro w hw
  obtain ⟨part, hpart, hmem⟩ := List.mem_flatten.1 hw
  exact canonicalAll_iff.1 (h part hpart) w hmem

/-- HASHF answers what closing its absorbed array gives (R141, R143). -/
theorem hashfResult_eq_finalizeContext (c : Cfg) (es : List Word) :
    hashfResult c es = (finalizeContext c (hashfAbsorbed c es)).X := by
  rw [hashfResult, finalizeContext]
  split <;> rfl

theorem hashfAbsorbed_append (c : Cfg) (xs ys : List Word) :
    hashfAbsorbed c (xs ++ ys) = absorbAll c (hashfAbsorbed c xs) ys := absorbAll_append c _ xs ys

theorem hashfAbsorbed_ok (v : Variant) (es : List Word) : (hashfAbsorbed v.cfg es).Ok v.cfg := absorbAll_ok v es (fresh_ok v)

theorem hashfAbsorbed_k_toNat (v : Variant) (es : List Word) :
    (hashfAbsorbed v.cfg es).k.toNat = es.length % v.cfg.rw := by
  obtain ⟨-, -, hk⟩ := fresh_ok v
  rw [hashfAbsorbed, absorbAll_k_toNat v.rw_lt_two_pow hk]
  simp

/-- The message that HASHF's padding makes of another one has its digest (R131 (c)). -/
theorem hashfResult_append_padding (v : Variant) {m : List Word} (hm : m.length % v.cfg.rw ≠ 0) :
    hashfResult v.cfg (m ++ 1 :: List.replicate (v.cfg.rw - m.length % v.cfg.rw - 1) 0) = hashfResult v.cfg m := by
  have hk := hashfAbsorbed_k_toNat v m
  have hpending : (hashfAbsorbed v.cfg m).k ≠ 0 := fun h0 => hm (by rw [← hk, h0]; rfl)
  have hfill := absorbAll_one_zeros v (hashfAbsorbed_ok v m) hpending
  rw [hk, Nat.sub_right_comm] at hfill
  rw [hashfResult_eq_finalizeContext, hashfAbsorbed_append, hfill, finalizeContext_idem, hashfResult_eq_finalizeContext]

/-! ## The chunks of a byte input -/

/-- A whole input of 1 to 7 bytes is its own chunk 0 (R122). -/
theorem chunkAt_zero_of_length_le {b : List Byte} (h1 : 1 ≤ b.length) (h7 : b.length ≤ 7) : chunkAt b 0 = b := by
  rw [chunkAt, memRead, List.drop_zero, List.take_of_length_le (by omega)]

/-- Chunk 0 of an input that goes on behind 7 bytes is these 7 (R122). -/
theorem chunkAt_zero_append {a b : List Byte} (ha : a.length = 7) (hb : b ≠ []) : chunkAt (a ++ b) 0 = a := by
  have := List.length_pos_of_ne_nil hb
  rw [chunkAt, memRead, List.drop_zero, List.length_append, List.take_left' (by omega)]

/-- The chunks behind 7 bytes are those of the rest (R122). -/
theorem chunkAt_succ_append {a b : List Byte} (ha : a.length = 7) (hb : b ≠ []) (k : Nat) :
    chunkAt (a ++ b) (k + 1) = chunkAt b k := by
  have := List.length_pos_of_ne_nil hb
  have hoff : 7 * (k + 1) = a.length + 7 * k := by omega
  rw [chunkAt, chunkAt, memRead, memRead, hoff, List.length_append, List.drop_length_add_append]
  congr 1
  omega

theorem byteElems_nil (c : Cfg) : byteElems c [] = [] := rfl

theorem byteElems_of_length_le (c : Cfg) {b : List Byte} (h1 : 1 ≤ b.length) (h7 : b.length ≤ 7) :
    byteElems c b = [chunkToField c b true] := by
  have hcount : chunkCount b.length = 1 := by rw [chunkCount]; omega
  rw [byteElems, hcount]
  simp [List.range_one, chunkAt_zero_of_length_le h1 h7]

theorem byteElems_append (c : Cfg) {a b : List Byte} (ha : a.length = 7) (hb : b ≠ []) :
    byteElems c (a ++ b) = chunkToField c a false :: byteElems c b := by
  have hpos := List.length_pos_of_ne_nil hb
  have hcount : chunkCount (a ++ b).length = chunkCount b.length + 1 := by
    rw [List.length_append, chunkCount, chunkCount]; omega
  have hmore : (chunkCount b.length == 0) = false := beq_false_of_ne (by rw [chunkCount]; omega)
  rw [byteElems, byteElems, hcount, List.range_succ_eq_map, List.map_cons, List.map_map, chunkAt_zero_append ha hb]
  simp [Function.comp_def, chunkAt_succ_append ha hb, hmore]

/-! ## Marked and unmarked elements

The marker stands at 256 to the number of the last chunk's bytes (R92), so an element shows whether its chunk was the last, and
of how many bytes. -/

/-- A marked element lies between the marker's weight and its double. -/
theorem chunkToField_marked {c : Cfg} (h : c.WellFormed) {chunk : List Byte} (hc : chunk.length ≤ 7) :
    256 ^ chunk.length ≤ (chunkToField c chunk true).toNat ∧
      (chunkToField c chunk true).toNat < 2 * 256 ^ chunk.length := by
  have hbytes := leNat_lt chunk
  rw [chunkToField_toNat h hc, le64_chunkBuf, if_pos rfl]
  omega

/-- An element without a marker spells 7 bytes and no more. -/
theorem chunkToField_unmarked_lt {c : Cfg} (h : c.WellFormed) {chunk : List Byte} (hc : chunk.length = 7) :
    (chunkToField c chunk false).toNat < 256 ^ 7 := by
  rw [chunkToField_toNat h hc.le, le64_chunkBuf, ← hc]
  exact leNat_lt chunk

/-- A longer last chunk has the greater element, so equal marked elements are of chunks of the same length. -/
theorem length_le_of_marked_eq {c : Cfg} (h : c.WellFormed) {x y : List Byte} (hx : x.length ≤ 7) (hy : y.length ≤ 7)
    (heq : chunkToField c x true = chunkToField c y true) : x.length ≤ y.length := by
  by_contra hlt
  obtain ⟨hlow, -⟩ := chunkToField_marked h hx
  obtain ⟨-, hhigh⟩ := chunkToField_marked h hy
  have hpow : 256 * 256 ^ y.length ≤ 256 ^ x.length := by
    rw [← pow_succ']
    exact Nat.pow_le_pow_right (by decide) (by omega)
  rw [heq] at hlow
  omega

/-- The first `7 * n` of more bytes are absorbed as elements without a marker, whatever follows them (R122). -/
theorem exists_unmarked_elems {c : Cfg} (h : c.WellFormed) (n : Nat) {a : List Byte} (ha : a.length = 7 * n) :
    ∃ xs : List Word, (∀ x ∈ xs, x.toNat < 256 ^ 7) ∧ ∀ b, b ≠ [] → byteElems c (a ++ b) = xs ++ byteElems c b := by
  induction n generalizing a with
  | zero =>
    obtain rfl := List.length_eq_zero_iff.1 ha
    exact ⟨[], nofun, fun b _ => rfl⟩
  | succ n ih =>
    have h7 : (a.take 7).length = 7 := by rw [List.length_take]; omega
    obtain ⟨xs, hxs, hrest⟩ := ih (a := a.drop 7) (by rw [List.length_drop]; omega)
    refine ⟨chunkToField c (a.take 7) false :: xs, ?_, fun b hb => ?_⟩
    · simpa using ⟨chunkToField_unmarked_lt h h7, hxs⟩
    · calc byteElems c (a ++ b)
          = byteElems c (a.take 7 ++ (a.drop 7 ++ b)) := by rw [← List.append_assoc, List.take_append_drop]
        _ = _ := by rw [byteElems_append c h7 (by simp [hb]), hrest b hb, List.cons_append]

/-- The last element of a byte input is marked, and its chunk has the bytes that the full chunks leave over (R122). -/
theorem exists_getLast_marked {c : Cfg} (h : c.WellFormed) {b : List Byte} (hb : b ≠ []) :
    ∃ chunk : List Byte, (byteElems c b).getLast? = some (chunkToField c chunk true) ∧ 1 ≤ chunk.length ∧
      chunk.length ≤ 7 ∧ chunk.length % 7 = b.length % 7 := by
  have hpos := List.length_pos_of_ne_nil hb
  obtain ⟨n, hn⟩ : ∃ n, n = (b.length - 1) / 7 := ⟨_, rfl⟩
  have hlast : (b.drop (7 * n)).length = b.length - 7 * n := List.length_drop
  obtain ⟨xs, -, hxs⟩ := exists_unmarked_elems h n (a := b.take (7 * n)) (by rw [List.length_take]; omega)
  have hsplit := hxs (b.drop (7 * n)) (List.ne_nil_of_length_pos (by omega))
  rw [List.take_append_drop, byteElems_of_length_le c (b := b.drop (7 * n)) (by omega) (by omega)] at hsplit
  refine ⟨b.drop (7 * n), by rw [hsplit, List.getLast?_concat], by omega, by omega, by omega⟩

/-- Two inputs whose last elements are equal have last chunks of the same length. -/
theorem length_mod_of_getLast_eq {c : Cfg} (h : c.WellFormed) {a b : List Byte} (ha : a ≠ []) (hb : b ≠ [])
    (heq : (byteElems c a).getLast? = (byteElems c b).getLast?) : a.length % 7 = b.length % 7 := by
  obtain ⟨x, hx, -, hx7, hxa⟩ := exists_getLast_marked h ha
  obtain ⟨y, hy, -, hy7, hyb⟩ := exists_getLast_marked h hb
  have hmark : chunkToField c x true = chunkToField c y true := by simpa [hx, hy] using heq
  have hle := length_le_of_marked_eq h hx7 hy7 hmark
  have hge := length_le_of_marked_eq h hy7 hx7 hmark.symm
  omega

/-- An input that ends with a full chunk has an element of `256 ^ 7` or more, the marker. -/
theorem exists_marked_of_length_mod_eq_zero {c : Cfg} (h : c.WellFormed) {a : List Byte} (ha : a ≠ [])
    (h7 : a.length % 7 = 0) : ∃ x ∈ byteElems c a, 256 ^ 7 ≤ x.toNat := by
  obtain ⟨chunk, hlast, h1, hle, hmod⟩ := exists_getLast_marked h ha
  obtain ⟨hlow, -⟩ := chunkToField_marked h hle
  rw [show chunk.length = 7 by omega] at hlow
  exact ⟨_, List.mem_of_getLast? hlast, hlow⟩

theorem byteElems_ne_nil (c : Cfg) {b : List Byte} (hb : b ≠ []) : byteElems c b ≠ [] := by
  have hpos := List.length_pos_of_ne_nil hb
  apply List.ne_nil_of_length_pos
  rw [byteElems_length, chunkCount]
  omega

/-! ## Commands on a state -/

/-- ABSORBF of encoded canonical elements, through the dispatch (R124). -/
theorem exec_absorbf_encElems (s : State) {es : List Word} (h : canonicalAll s.cfg.p es = true) :
    exec (.absorbf (encElems es)) s = .next (respond [] (s.setContext (absorbAll s.cfg s.context es))) :=
  execAbsorbf_encElems s h

theorem exec_hashf_encElems (s : State) {es : List Word} (h : canonicalAll s.cfg.p es = true) :
    exec (.hashf (encElems es)) s = .next (respond (squeeze s.cfg (hashfResult s.cfg es)) s.leaveScratch) :=
  execHashf_encElems s h

theorem exec_finalize (s : State) :
    exec (.finalize []) s = .next (respond (squeeze s.cfg (finalizeContext s.cfg s.context).X)
      (s.setContext (finalizeContext s.cfg s.context))) := execFinalize_legal s

/-- With no block pending FINALIZE answers the digest of `S` as it is and writes nothing (R125). -/
theorem exec_finalize_of_closed {s : State} (h : finalizeContext s.cfg s.context = s.context) :
    exec (.finalize []) s = .next (respond (squeeze s.cfg s.S) s) := by
  rw [exec_finalize, h, setContext_context, context_X]

theorem encElems_replicate_zero (n : Nat) : encElems (List.replicate n 0) = List.replicate (8 * n) 0 := by
  induction n with
  | zero => rfl
  | succ n ih =>
    have hzero : enc8 0 = List.replicate 8 0 := by decide
    rw [List.replicate_succ, encElems_cons, ih, hzero, List.replicate_append_replicate, Nat.mul_succ, Nat.add_comm]

/-- The digest of the all-zero array (R126). -/
theorem squeeze_freshArray {c : Cfg} (h : c.ds ≤ c.sw) : squeeze c (freshArray c) = List.replicate (8 * c.ds) 0 := by
  rw [squeeze, freshArray, List.take_replicate, Nat.min_eq_left h, encElems_replicate_zero]

/-- What is left of a state when a command has been executed on it; `exec` answers nothing else (`exec_eq_execNext`). -/
def execNext (s : State) (i : Instr) : State := (effect s.cfg s.context i).apply s

theorem exec_eq_execNext (i : Instr) (s : State) : exec i s = .next (execNext s i) := exec_eq_apply i s

theorem execNext_of_exec {s t : State} {i : Instr} (h : exec i s = .next t) : execNext s i = t := by
  rw [exec_eq_execNext] at h
  cases h
  rfl

theorem execNext_setRx (s : State) (b : List Byte) (i : Instr) : execNext (s.setRx b) i = (execNext s i).setRx b :=
  apply_setRx _ s b

/-- The engine runs the frames it has received in order, one step each (R50, R61). -/
theorem run_encoded_commands (s : State) (is : List Instr) (hlen : ∀ i ∈ is, i.payload.length < 2 ^ 64) :
    Host.Core.run Sys2Proof.core is.length (s.setRx (is.flatMap encode)) =
      .next ((is.foldl execNext s).setRx []) := by
  induction is generalizing s with
  | nil => rfl
  | cons i is ih =>
    obtain ⟨hi, his⟩ := List.forall_mem_cons.1 hlen
    have hstep : step (s.setRx ((i :: is).flatMap encode)) = .next ((execNext s i).setRx (is.flatMap encode)) := by
      rw [step_encode hi rfl, exec_eq_execNext]
      exact congrArg _ (execNext_setRx s _ i)
    exact (run_succ_of_next hstep).trans (ih (execNext s i) his)

/-! ## Streaming a message in parts -/

/-- NEW, then one ABSORBF for each part of a message (R129). -/
def streamCommands (parts : List (List Word)) : List Instr :=
  .new [] :: parts.map fun part => .absorbf (encElems part)

theorem streamCommands_flatMap_encode (parts : List (List Word)) :
    (streamCommands parts).flatMap encode =
      encode (.new []) ++ parts.flatMap fun part => encode (.absorbf (encElems part)) := by
  rw [streamCommands, List.flatMap_cons, List.flatMap_map]

theorem streamCommands_length (parts : List (List Word)) : (streamCommands parts).length = parts.length + 1 := by
  simp [streamCommands]

/-- Every part has a frame when the whole message has one. -/
theorem streamCommands_encodable {parts : List (List Word)} (hlen : 8 * parts.flatten.length < 2 ^ 64) :
    ∀ i ∈ streamCommands parts, i.payload.length < 2 ^ 64 := by
  refine List.forall_mem_cons.2 ⟨by decide, fun i hi => ?_⟩
  obtain ⟨part, hpart, rfl⟩ := List.mem_map.1 hi
  have hle := (List.sublist_flatten_of_mem hpart).length_le
  rw [Instr.payload, encElems_length]
  omega

/-- The ABSORBF commands of a message's parts absorb the message, whatever the cut (R129). -/
theorem foldl_absorbf_context (s : State) {parts : List (List Word)}
    (hcanon : ∀ part ∈ parts, canonicalAll s.cfg.p part = true) :
    let t := (parts.map fun part => Instr.absorbf (encElems part)).foldl execNext s
    t.context = absorbAll s.cfg s.context parts.flatten ∧ t.variant = s.variant := by
  induction parts generalizing s with
  | nil => exact ⟨rfl, rfl⟩
  | cons part parts ih =>
    obtain ⟨hpart, hparts⟩ := List.forall_mem_cons.1 hcanon
    have hnext := execNext_of_exec (exec_absorbf_encElems s hpart)
    have hrest := ih (respond [] (s.setContext (absorbAll s.cfg s.context part))) hparts
    rw [List.map_cons, List.foldl_cons, hnext, List.flatten_cons, absorbAll_append]
    exact hrest

/-- After NEW and the parts of a message the context is the array and cursor HASHF makes of the message (R129, R141). -/
theorem foldl_streamCommands_context (s : State) {parts : List (List Word)}
    (hcanon : ∀ part ∈ parts, canonicalAll s.cfg.p part = true) :
    ((streamCommands parts).foldl execNext s).context = hashfAbsorbed s.cfg parts.flatten ∧
      ((streamCommands parts).foldl execNext s).variant = s.variant :=
  foldl_absorbf_context (execNext s (.new [])) hcanon

/-- The engine after the frames of NEW and the parts of a message (R129). -/
theorem exists_run_streamCommands (s : State) {parts : List (List Word)}
    (hcanon : ∀ part ∈ parts, canonicalAll s.cfg.p part = true) (hlen : 8 * parts.flatten.length < 2 ^ 64) :
    ∃ t, Host.Core.run Sys2Proof.core (parts.length + 1)
        (s.setRx (encode (.new []) ++ parts.flatMap fun part => encode (.absorbf (encElems part)))) = .next t ∧
      t.context = hashfAbsorbed s.cfg parts.flatten := by
  have hrun := run_encoded_commands s (streamCommands parts) (streamCommands_encodable hlen)
  rw [streamCommands_flatMap_encode, streamCommands_length] at hrun
  exact ⟨_, hrun, (foldl_streamCommands_context s hcanon).1⟩

/-- The engine after the same frames and FINALIZE: the last response is HASHF's digest of the message (R129, R143). -/
theorem exists_run_streamCommands_finalize (s : State) {parts : List (List Word)}
    (hcanon : ∀ part ∈ parts, canonicalAll s.cfg.p part = true) (hlen : 8 * parts.flatten.length < 2 ^ 64) :
    ∃ t pre, Host.Core.run Sys2Proof.core (parts.length + 2)
        (s.setRx (encode (.new []) ++ parts.flatMap (fun part => encode (.absorbf (encElems part))) ++
          encode (.finalize []))) = .next t ∧
      t.tx = pre ++ responseFrame .ok (squeeze s.cfg (hashfResult s.cfg parts.flatten)) := by
  have hfin : (Instr.finalize []).payload.length < 2 ^ 64 := by decide
  have hall := List.forall_mem_append.2 ⟨streamCommands_encodable hlen, List.forall_mem_singleton.2 hfin⟩
  have hrun := run_encoded_commands s (streamCommands parts ++ [.finalize []]) hall
  rw [List.flatMap_append, streamCommands_flatMap_encode, List.flatMap_singleton, List.length_append,
    streamCommands_length, List.foldl_concat, execNext_of_exec (exec_finalize _)] at hrun
  obtain ⟨hctx, hvar⟩ := foldl_streamCommands_context s hcanon
  refine ⟨_, ((streamCommands parts).foldl execNext s).tx, hrun, ?_⟩
  rw [setRx_tx, respond_tx, setContext_tx, hctx, State.cfg, hvar, ← hashfResult_eq_finalizeContext]

/-! ## The statements -/

/-- Settles O16: a payload decides between the fresh context and the refusal. -/
theorem newGivesTheFreshContext : Obligations.NewGivesTheFreshContext := by
  intro s
  refine ⟨execNew_legal s, fun b hb => ?_⟩
  exact execNew_illegal s b (by simpa using hb)

/-- Settles O17: ABSORBF of one element is `absorb_elem` at the cursor, in its two cases. -/
theorem absorbfAddsOneElementAtTheCursor : Obligations.AbsorbfAddsOneElementAtTheCursor := by
  intro s e he _
  have hexec : exec (.absorbf (enc8 e)) s = .next (respond [] (s.setContext (absorbElem s.cfg s.context e))) := by
    simpa using exec_absorbf_encElems s (es := [e]) (by simpa using he)
  refine ⟨_, rfl, fun hfull => ?_, fun hroom => ?_⟩
  · rw [hexec, absorbElem_of_eq s.variant.rw_lt_two_pow hfull]
    rfl
  · rw [hexec, absorbElem_of_lt s.variant.rw_lt_two_pow hroom]
    rfl

/-- Settles O18: the cursor counts the elements, and each position from it on gets its own. -/
theorem absorbfWithinABlockAddsIntoTheRate : Obligations.AbsorbfWithinABlockAddsIntoTheRate := by
  intro s es hs hcanon hroom
  have hrw := s.variant.rw_lt_two_pow
  obtain ⟨hlen, -, hk⟩ := (Inv_iff s).1 hs
  obtain ⟨hlen', -, -⟩ := absorbAll_ok s.variant es ((Inv_iff s).1 hs)
  refine ⟨_, exec_absorbf_encElems s hcanon, rfl, ?cursor, hlen'.trans hlen.symm, ?positions⟩
  case cursor => exact (absorbAll_k_toNat hrw hk es).trans (Nat.mod_eq_of_lt hroom)
  case positions => exact absorbAll_getD_of_lt hrw (hlen ▸ s.variant.wf.rw_lt.le) hroom

/-- Settles O19: between two elements nothing but the array and the cursor is kept, so a cut between commands is none. -/
theorem absorbfIsSplitInvariant : Obligations.AbsorbfIsSplitInvariant := by
  intro s xs ys hxs hys
  have happend := absorbAll_append s.cfg s.context xs ys
  exact ⟨_, _, _, exec_absorbf_encElems s ((canonicalAll_append _ _ _).2 ⟨hxs, hys⟩), exec_absorbf_encElems s hxs,
    exec_absorbf_encElems _ hys, congrArg Sponge.X happend, congrArg Sponge.k happend,
    exec_absorbf_encElems s (canonicalAll_nil _)⟩

/-- Settles O20: the chunks' elements are canonical, so ABSORBF takes them all. -/
theorem absorbIsAbsorbfOfTheChunkElements : Obligations.AbsorbIsAbsorbfOfTheChunkElements := by
  intro s b
  exact ⟨_, execAbsorb_next s b, exec_absorbf_encElems s (byteElems_canonical s.variant.wf b), rfl⟩

/-- Settles O21: the number of chunks and each chunk's bytes, in the three cases. -/
theorem byteInputIsCutIntoSevenByteChunks : Obligations.ByteInputIsCutIntoSevenByteChunks := by
  intro c
  exact ⟨byteElems_nil c, fun b => byteElems_of_length_le c, fun a b => byteElems_append c⟩

/-- Settles O23: were the elements the same, the last chunks would be of one length, so the first part would end with a full
chunk; its marker then stands where the whole message has an element without one. -/
theorem splittingAByteMessageChangesItsElements : Obligations.SplittingAByteMessageChangesItsElements := by
  intro v a b ha hb heq
  have hlast : (byteElems v.cfg (a ++ b)).getLast? = (byteElems v.cfg b).getLast? := by
    rw [heq, List.getLast?_append_of_ne_nil _ (byteElems_ne_nil v.cfg hb)]
  have hmod := length_mod_of_getLast_eq v.wf (List.append_ne_nil_of_right_ne_nil a hb) hb hlast
  rw [List.length_append] at hmod
  obtain ⟨x, hx, hmarked⟩ := exists_marked_of_length_mod_eq_zero v.wf ha (by omega)
  obtain ⟨xs, hxs, hfull⟩ := exists_unmarked_elems v.wf (a.length / 7) (a := a) (by omega)
  rw [hfull b hb] at heq
  have hunmarked := hxs x (List.append_cancel_right heq ▸ hx)
  omega

/-- Settles O24: with a block pending, closing it is absorbing `one` and the zeros that fill it. -/
theorem finalizeIsAbsorbingOneAndZeros : Obligations.FinalizeIsAbsorbingOneAndZeros := by
  intro s hs
  refine ⟨_, exec_finalize s, finalizeContext_k s.cfg s.context, rfl, rfl, rfl, rfl, rfl, rfl,
    fun h0 => ?_, fun hne => ?_⟩
  · exact congrArg Sponge.X (finalizeContext_of_k_eq_zero (sp := s.context) h0)
  · have hfill := absorbAll_one_zeros s.variant ((Inv_iff s).1 hs) hne
    refine ⟨_, exec_absorbf_encElems s (canonicalAll_one_zeros s.variant.wf _), congrArg Sponge.X hfill.symm, ?_⟩
    exact (congrArg Sponge.k hfill).trans (finalizeContext_k s.cfg s.context)

/-- Settles O25: the context the first FINALIZE leaves is closed, and closing it again changes nothing. -/
theorem finalizeTwiceAnswersTheSameDigest : Obligations.FinalizeTwiceAnswersTheSameDigest := by
  intro s t ht
  rw [exec_finalize] at ht
  cases ht
  exact ⟨_, rfl, exec_finalize_of_closed (finalizeContext_idem s.cfg s.context)⟩

/-- Settles O26: the fresh context is closed, and an encoded zero is 8 zero bytes. -/
theorem emptyMessageHasTheZeroDigest : Obligations.EmptyMessageHasTheZeroDigest := by
  intro v
  have hclosed : finalizeContext v.cfg (State.resetOf v).context = (State.resetOf v).context :=
    finalizeContext_of_k_eq_zero rfl
  have hds : v.cfg.ds ≤ v.cfg.sw := v.wf.ds_le.trans v.wf.rw_lt.le
  rw [exec_finalize_of_closed hclosed, ← squeeze_freshArray hds]
  rfl

/-- Settles O30: after NEW and the parts the context is HASHF's own array and cursor, which FINALIZE closes as HASHF does. -/
theorem hashfEqualsTheStreamingCommands : Obligations.HashfEqualsTheStreamingCommands := by
  intro s parts hcanon hlen
  have hmsg := canonicalAll_flatten hcanon
  refine ⟨?same_answer, ?same_context⟩
  case same_answer =>
    obtain ⟨t, pre, hrun, htx⟩ := exists_run_streamCommands_finalize s hcanon hlen
    have hframe : (Instr.hashf (encElems parts.flatten)).payload.length < 2 ^ 64 := by
      rw [Instr.payload, encElems_length]; exact hlen
    have hstep := step_encode (s := s.setRx (encode (.hashf (encElems parts.flatten)))) hframe (List.append_nil _).symm
    exact ⟨t, _, pre, _, hrun, hstep.trans (exec_hashf_encElems (s.setRx []) hmsg), htx, rfl,
      by rw [responseFrame_length]; omega⟩
  case same_context =>
    obtain ⟨t, hrun, hctx⟩ := exists_run_streamCommands s hcanon hlen
    obtain ⟨u, hrun', hctx'⟩ := exists_run_streamCommands s (parts := [parts.flatten])
      (List.forall_mem_singleton.2 hmsg) (by simpa using hlen)
    have heq : t.context = u.context := by rw [hctx, hctx', List.flatten_singleton]
    exact ⟨t, u, hrun, by simpa using hrun', congrArg Sponge.X heq, congrArg Sponge.k heq⟩

/-- Settles O31: the filled-up message absorbs, after the message itself, what closing its pending block adds. -/
theorem hashfPaddingCollision : Obligations.HashfPaddingCollision := by
  intro s m hm hpending
  have hpad := canonicalAll_one_zeros s.variant.wf (s.cfg.rw - m.length % s.cfg.rw - 1)
  have hfilled := (canonicalAll_append _ _ _).2 ⟨hm, hpad⟩
  refine ⟨_, _, _, exec_hashf_encElems s hm, exec_hashf_encElems s hfilled, rfl, ?_⟩
  rw [hashfResult_append_padding s.variant hpending]
  rfl

end Sys2Proof.Machine
end

section
/-! PROOFS. The statements of 43_oneshot.md: the one-shot commands are pure; HASH and HASHF are absorbing from a fresh array, and
MERGE permutes the one block that its two digests make. -/

namespace Sys2Proof.Machine

/-! ## One-shot commands and the context -/

/-- A command that uses the scratch state does not read the context (R144). -/
theorem effect_eq_of_mayUseScratch {i : Instr} (h : mayUseScratch i = true) (c : Cfg) (sp sp' : Sponge) :
    effect c sp i = effect c sp' i := by
  cases i with
  | new b | absorb b | absorbf b | finalize b | save b | restore b => cases h
  | hash b | hashf b | merge b | permute b => rfl

/-- A command that uses the scratch state does not write the context either (R144). -/
theorem not_mayWriteContext_of_mayUseScratch {i : Instr} (h : mayUseScratch i = true) : mayWriteContext i = false := by
  cases i with
  | new b | absorb b | absorbf b | finalize b | save b | restore b => cases h
  | hash b | hashf b | merge b | permute b => rfl

theorem mayUseScratch_of_mem {i : Instr} {b : List Byte}
    (h : i ∈ [Instr.hash b, .hashf b, .merge b, .permute b]) : mayUseScratch i = true := by
  simp only [List.mem_cons, List.not_mem_nil, or_false] at h
  obtain rfl | rfl | rfl | rfl := h <;> rfl

/-- Such a command has one effect, whatever the context, and the effect leaves the context as it is (R144). -/
theorem exists_effect_of_mayUseScratch {i : Instr} (h : mayUseScratch i = true) (c : Cfg) :
    ∃ e : Effect, e.ctx = none ∧ ∀ sp, effect c sp i = e :=
  ⟨effect c ⟨[], 0⟩ i, effect_ctx_of_not_mayWriteContext _ _ (not_mayWriteContext_of_mayUseScratch h),
    fun sp => effect_eq_of_mayUseScratch h c sp _⟩

theorem apply_context_of_ctx_eq_none {e : Effect} (h : e.ctx = none) (s : State) : (e.apply s).context = s.context := by
  rw [apply_context, h, Option.getD_none]

/-- From two states of one configuration and context a command answers the same response and leaves the same context (R144). -/
theorem exec_same_of_context_eq {s t : State} (hv : t.variant = s.variant) (hctx : t.context = s.context) (k : Instr) :
    ∃ u w o, exec k s = .next u ∧ exec k t = .next w ∧ u.tx = s.tx ++ o ∧ w.tx = t.tx ++ o ∧ w.S = u.S ∧ w.IDX = u.IDX := by
  have ht : exec k t = .next ((effect s.cfg s.context k).apply t) := by rw [exec_eq_apply, hctx, State.cfg, hv]
  refine ⟨_, _, _, exec_eq_apply k s, ht, apply_tx _ s, apply_tx _ t, ?_, ?_⟩
  · rw [apply_S, apply_S, hctx]
  · rw [apply_IDX, apply_IDX, hctx]

/-! ## One element in a fresh array -/

/-- One element absorbed and its block permuted if it is still pending: the permutation runs once, whether the element filled
the block or not (R121, R140). -/
theorem permute_pending_absorbElem {c : Cfg} (hrw : c.rw < 2 ^ 64) {sp : Sponge} (hk : sp.k.toNat < c.rw) (e : Word) :
    (if (absorbElem c sp e).k = 0 then (absorbElem c sp e).X else permute c (absorbElem c sp e).X) =
      permute c (sp.X.set sp.k.toNat (fadd c (sp.X.getD sp.k.toNat 0) e)) := by
  rcases Nat.lt_or_eq_of_le (Nat.succ_le_of_lt hk) with hlt | hfull
  · have hne : sp.k + 1 ≠ 0 := fun h0 => by
      have hadd := cursor_add_one_toNat hrw hk
      rw [h0] at hadd
      exact absurd hadd (Nat.succ_ne_zero _).symm
    rw [absorbElem_of_lt hrw hlt, if_neg hne]
  · rw [absorbElem_of_eq hrw hfull, if_pos rfl]

theorem fofNat_one {c : Cfg} (h : c.WellFormed) : fofNat c 1 = 1 := by
  rw [fofNat, Nat.mod_eq_of_lt h.one_lt_p]
  rfl

/-- The fresh array of HASH for an input of one chunk: the count 1 in the capacity's last slot (R140). -/
theorem hashStart_of_one_chunk {c : Cfg} (h : c.WellFormed) {n : Nat} (hn : chunkCount n = 1) :
    hashStart c n = ⟨0 :: (List.replicate (c.sw - 2) 0 ++ [1]), 0⟩ := by
  have hrw := h.rw_pos
  have hlt := h.rw_lt
  have hsw : c.sw = c.sw - 2 + 1 + 1 := by omega
  have hlast : (List.replicate c.sw (0 : Word)).set (c.sw - 1) 1 = 0 :: (List.replicate (c.sw - 2) 0 ++ [1]) := by
    generalize c.sw - 2 = m at hsw
    rw [hsw, Nat.add_sub_cancel, List.replicate_succ, List.set_cons_succ, List.replicate_succ']
    simp
  rw [hashStart, hn, fofNat_one h, freshArray, hlast]

/-- HASH of an input of one chunk (R140, V70). -/
theorem hashResult_of_length_le (v : Variant) {b : List Byte} (h1 : 1 ≤ b.length) (h7 : b.length ≤ 7) :
    hashResult v.cfg b =
      permute v.cfg (chunkToField v.cfg b true :: (List.replicate (v.cfg.sw - 2) 0 ++ [1])) := by
  have hcount : chunkCount b.length = 1 := by rw [chunkCount]; omega
  have honce := permute_pending_absorbElem v.rw_lt_two_pow (sp := hashStart v.cfg b.length) v.wf.rw_pos
  rw [hashResult, hashAbsorbed, byteElems_of_length_le _ h1 h7, absorbAll_cons, absorbAll_nil, honce,
    hashStart_of_one_chunk v.wf hcount]
  exact congrArg (permute v.cfg <| · :: _) (zero_fadd v.wf (chunkToField_lt v.wf h7))

/-! ## One block in a fresh array -/

/-- An element added at the first of the zeros behind a list stands at the list's end. -/
theorem set_fadd_append_zeros {c : Cfg} (h : c.WellFormed) {x : Word} (hx : x.toNat < c.p) (xs : List Word) {n : Nat}
    (hn : xs.length < n) :
    (xs ++ List.replicate (n - xs.length) 0).set xs.length
        (fadd c ((xs ++ List.replicate (n - xs.length) 0).getD xs.length 0) x) =
      xs ++ [x] ++ List.replicate (n - (xs ++ [x]).length) 0 := by
  obtain ⟨m, rfl⟩ := Nat.exists_eq_add_of_lt hn
  have hroom : xs.length + m + 1 - xs.length = m + 1 := by omega
  have hrest : xs.length + m + 1 - (xs ++ [x]).length = m := by rw [List.length_append, List.length_singleton]; omega
  have hadd : fadd c 0 x = x := zero_fadd h hx
  rw [hroom, hrest, List.replicate_succ]
  simpa using hadd

/-- Elements that do not fill a block stand at the front of the zero array, and the cursor behind them (R121, R141). -/
theorem hashfAbsorbed_of_length_lt (v : Variant) {es : List Word} (hcanon : canonicalAll v.cfg.p es = true)
    (hlen : es.length < v.cfg.rw) :
    (hashfAbsorbed v.cfg es).X = es ++ List.replicate (v.cfg.sw - es.length) 0 ∧
      (hashfAbsorbed v.cfg es).k.toNat = es.length := by
  refine ⟨?_, by rw [hashfAbsorbed_k_toNat, Nat.mod_eq_of_lt hlen]⟩
  induction es using List.reverseRecOn with
  | nil => rfl
  | append_singleton xs x ih =>
    obtain ⟨hxs, hx⟩ := (canonicalAll_append _ _ _).1 hcanon
    rw [List.length_append, List.length_singleton] at hlen
    have hk : (hashfAbsorbed v.cfg xs).k.toNat = xs.length := by rw [hashfAbsorbed_k_toNat, Nat.mod_eq_of_lt (by omega)]
    have hsw := v.wf.rw_lt
    rw [hashfAbsorbed_append, absorbAll_cons, absorbAll_nil, absorbElem_of_lt v.rw_lt_two_pow (by omega), hk,
      ih hxs (by omega)]
    exact set_fadd_append_zeros v.wf (canonicalAll_iff.1 hx x (by simp)) xs (by omega)

/-- Elements that fill exactly one block leave what MERGE computes of them, and no block pending (R121, R141, R142). -/
theorem hashfAbsorbed_of_length_eq (v : Variant) {es : List Word} (hcanon : canonicalAll v.cfg.p es = true)
    (hlen : es.length = v.cfg.rw) : hashfAbsorbed v.cfg es = ⟨mergeResult v.cfg es, 0⟩ := by
  have hrw := v.wf.rw_pos
  have hsw := v.wf.rw_lt
  rcases es.eq_nil_or_concat' with rfl | ⟨xs, x, rfl⟩
  · rw [List.length_nil] at hlen
    omega
  · obtain ⟨hxs, hx⟩ := (canonicalAll_append _ _ _).1 hcanon
    rw [List.length_append, List.length_singleton] at hlen
    obtain ⟨hX, hk⟩ := hashfAbsorbed_of_length_lt v hxs (by omega)
    rw [hashfAbsorbed_append, absorbAll_cons, absorbAll_nil, absorbElem_of_eq v.rw_lt_two_pow (by omega), hk, hX,
      set_fadd_append_zeros v.wf (canonicalAll_iff.1 hx x (by simp)) xs (by omega), mergeResult]

/-- HASHF of one whole block of elements is MERGE's permutation of them (R142). -/
theorem hashfResult_of_length_eq (v : Variant) {es : List Word} (hcanon : canonicalAll v.cfg.p es = true)
    (hlen : es.length = v.cfg.rw) : hashfResult v.cfg es = mergeResult v.cfg es := by
  rw [hashfResult, hashfAbsorbed_of_length_eq v hcanon hlen, if_pos rfl]

/-! ## MERGE on a state -/

/-- MERGE of encoded canonical elements (R142). -/
theorem exec_merge_encElems (s : State) {es : List Word} (h : canonicalAll s.cfg.p es = true)
    (hlen : es.length = 2 * s.cfg.ds) :
    exec (.merge (encElems es)) s = .next (respond (squeeze s.cfg (mergeResult s.cfg es)) s.leaveScratch) :=
  execMerge_legal s _ (by rw [encElems_length, hlen, Nat.mul_comm]) (hlen ▸ elemOperands_encElems' s.cfg es h)

/-- The same of two digests, sent one behind the other. -/
theorem exec_merge_digests (s : State) {d₀ d₁ : List Word} (h₀ : d₀.length = s.cfg.ds) (h₁ : d₁.length = s.cfg.ds)
    (hc₀ : canonicalAll s.cfg.p d₀ = true) (hc₁ : canonicalAll s.cfg.p d₁ = true) :
    exec (.merge (encElems d₀ ++ encElems d₁)) s =
      .next (respond (squeeze s.cfg (mergeResult s.cfg (d₀ ++ d₁))) s.leaveScratch) := by
  rw [← encElems_append]
  exact exec_merge_encElems s ((canonicalAll_append _ _ _).2 ⟨hc₀, hc₁⟩) (by rw [List.length_append]; omega)

/-! ## The statements -/

/-- Settles O13: a one-shot command's effect is computed without the context and does not write it, and all that the next command
computes from is the configuration and the context. -/
theorem oneShotCommandsArePure : Obligations.OneShotCommandsArePure := by
  intro v b i hi
  obtain ⟨e, hnone, heff⟩ := exists_effect_of_mayUseScratch (mayUseScratch_of_mem hi) v.cfg
  refine ⟨responseFrame e.st e.payload, ?_⟩
  rintro s rfl
  have hexec : exec i s = .next (e.apply s) := by rw [exec_eq_apply, heff]
  have hctx := apply_context_of_ctx_eq_none hnone s
  exact ⟨e.apply s, hexec, apply_variant e s, congrArg Sponge.X hctx, congrArg Sponge.k hctx, apply_rx e s, apply_tx e s,
    exec_same_of_context_eq (apply_variant e s) hctx⟩

/-- Settles O28: the one marked chunk is added to a zero, and its block is permuted once however long the rate is. -/
theorem shortHashPermutesOnce : Obligations.ShortHashPermutesOnce := by
  intro s b h1 h7
  refine ⟨_, execHash_next s b, ?_⟩
  rw [respond_tx, leaveScratch_tx, hashResult_of_length_le s.variant h1 h7, squeeze]

/-- Settles O29: HASHF absorbs from the zero state as ABSORBF does, and closes a pending block with `one`. -/
theorem hashfIsAbsorbfFromTheZeroState : Obligations.HashfIsAbsorbfFromTheZeroState := by
  intro s b
  refine ⟨?wrong_length, ?not_canonical, ?digest⟩
  case wrong_length => exact fun hlen => execHashf_illegal s b hlen
  case not_canonical => exact fun hlen hbad => execHashf_invalid s b hlen (elemOperands_none.2 hbad)
  case digest =>
    intro hlen hcanon
    have hsome : elemOperands s.cfg b (b.length / 8) ≠ none := fun hnone => by
      obtain ⟨k, hk, hbad⟩ := elemOperands_none.1 hnone
      exact absurd (hcanon k hk) (by omega)
    obtain ⟨es, hes⟩ := Option.ne_none_iff_exists'.1 hsome
    exact ⟨_, _, execAbsorbf_legal (s.setContext ⟨freshArray s.cfg, 0⟩) b hlen hes, execHashf_legal s b hlen hes,
      rfl, rfl, rfl, rfl, rfl⟩

/-- Settles O32: the two refusals and the digest are the cases of `execMerge`, on the two digests one behind the other. -/
theorem mergePermutesTheTwoDigests : Obligations.MergePermutesTheTwoDigests := by
  intro s
  refine ⟨?wrong_length, ?not_canonical, ?digest⟩
  case wrong_length => exact fun b hlen => execMerge_illegal s b hlen
  case not_canonical => exact fun b hlen hbad => execMerge_invalid s b hlen (elemOperands_none.2 hbad)
  case digest =>
    intro d₀ d₁ h₀ h₁ hc₀ hc₁
    have hzeros : s.cfg.sw - 2 * s.cfg.ds = s.cfg.sw - (d₀ ++ d₁).length := by rw [List.length_append]; omega
    refine ⟨_, rfl, ?_⟩
    rw [exec_merge_digests s h₀ h₁ hc₀ hc₁, hzeros]
    rfl

/-- Settles O33: two digests that fill the rate are one whole block, which HASHF permutes with no block left pending. -/
theorem mergeIsHashfWhenDigestsFillTheRate : Obligations.MergeIsHashfWhenDigestsFillTheRate := by
  intro s d₀ d₁ hrate h₀ h₁ hc₀ hc₁
  have hcanon := (canonicalAll_append _ _ _).2 ⟨hc₀, hc₁⟩
  have hblock : (d₀ ++ d₁).length = s.cfg.rw := by rw [List.length_append]; omega
  refine ⟨_, _, exec_merge_digests s h₀ h₁ hc₀ hc₁, exec_hashf_encElems s hcanon, ?_⟩
  rw [hashfResult_of_length_eq s.variant hcanon hblock]

/-- Settles O27: HASH's own loop is ABSORB's, from the array with the count in its last slot. -/
theorem hashIsAbsorbFromTheCountedState : Obligations.HashIsAbsorbFromTheCountedState := by
  intro s b
  exact ⟨_, _, execAbsorb_next (s.setContext (hashStart s.cfg b.length)) b, execHash_next s b, rfl, rfl, rfl⟩

end Sys2Proof.Machine
end

section
/-! PROOFS. The statements of 44_serialization.md: where the persisted state holds each element and the cursor, that its operands
are the context again, that an accepted payload is the persisted state of its operands, and the cases of RESTORE. -/

namespace Sys2Proof.Machine

/-! ## Reads in a payload made of two parts -/

theorem memRead_length_of_le {b : List Byte} {off n : Nat} (h : off + n ≤ b.length) : (memRead b off n).length = n := by
  rw [memRead, List.length_take, List.length_drop]
  omega

theorem memRead_append_at_zero {a : List Byte} {n : Nat} (ha : a.length = n) (b : List Byte) : memRead (a ++ b) 0 n = a := by
  rw [memRead, List.drop_zero, List.take_left' ha]

theorem memRead_append_at_add {a : List Byte} {m : Nat} (ha : a.length = m) (b : List Byte) (off n : Nat) :
    memRead (a ++ b) (m + off) n = memRead b off n := by
  rw [← ha, memRead, List.drop_length_add_append, memRead]

/-- Group `i` of encoded elements is the encoding of element `i`, whatever follows them (R46). -/
theorem memRead_encElems_append {xs : List Word} {i : Nat} (hi : i < xs.length) (b : List Byte) :
    memRead (encElems xs ++ b) (8 * i) 8 = enc8 xs[i] := by
  induction xs generalizing i with
  | nil => exact absurd hi (Nat.not_lt_zero i)
  | cons x xs ih =>
    rw [encElems_cons, List.append_assoc]
    cases i with
    | zero => exact memRead_append_at_zero (enc8_length x) _
    | succ i =>
      rw [Nat.mul_succ, Nat.add_comm, memRead_append_at_add (enc8_length x)]
      exact ih (Nat.lt_of_succ_lt_succ hi)

/-! ## The persisted state -/

@[simp] theorem persisted_length (sp : Sponge) : (persisted sp).length = sp.X.length * 8 + 8 := by
  rw [persisted, List.length_append, encElems_length, toLe64_length, Nat.mul_comm]

theorem memRead_persisted_elem {sp : Sponge} {i : Nat} (hi : i < sp.X.length) :
    memRead (persisted sp) (8 * i) 8 = enc8 sp.X[i] := memRead_encElems_append hi _

theorem memRead_persisted_cursor (sp : Sponge) : memRead (persisted sp) (8 * sp.X.length) 8 = toLe64 sp.k.toNat := by
  have hread := memRead_append_at_add (encElems_length sp.X) (toLe64 sp.k.toNat ++ []) 0 8
  rwa [memRead_append_at_zero (toLe64_length _), List.append_nil] at hread

/-- The cursor operand of a persisted state is its cursor. -/
theorem cursorOperand_persisted {c : Cfg} {sp : Sponge} (hX : sp.X.length = c.sw) :
    cursorOperand c (persisted sp) = sp.k.toNat := by
  rw [cursorOperand, ← hX, memRead_persisted_cursor, le64_toLe64 sp.k.isLt]

/-- The element operands of a persisted state are its array (R152). -/
theorem elemOperands_persisted {c : Cfg} {sp : Sponge} (hX : sp.X.length = c.sw) (hcanon : canonicalAll c.p sp.X = true) :
    elemOperands c (persisted sp) c.sw = some sp.X := hX ▸ elemOperands_encElems c sp.X _ hcanon

/-! ## The operands of an accepted payload -/

/-- An element read from 8 bytes is encoded as those bytes (R91). -/
theorem enc8_of_dec8 {c : Cfg} (h : c.WellFormed) {b : List Byte} {a : Word} (hlen : b.length = 8)
    (hb : dec8 c b = some a) : enc8 a = b := by
  rw [enc8_eq_toLe64, (dec8_some h hb).1, toLe64_le64 hlen]

/-- Groups that all spell integers below `P` have element operands (R65). -/
theorem exists_elemOperands {c : Cfg} {b : List Byte} {n : Nat} (h : ∀ k < n, le64 (memRead b (8 * k) 8) < c.p) :
    ∃ es, elemOperands c b n = some es := by
  rw [← Option.ne_none_iff_exists', ne_eq, elemOperands_none]
  rintro ⟨k, hk, hbad⟩
  exact absurd (h k hk) (Nat.not_lt.2 hbad)

/-- Element operand `k` is the integer that group `k` spells (R151). -/
theorem elemOperands_getD_toNat {c : Cfg} (h : c.WellFormed) {b : List Byte} {n : Nat} {es : List Word}
    (hd : elemOperands c b n = some es) {k : Nat} (hk : k < n) :
    (es.getD k 0).toNat = le64 (memRead b (8 * k) 8) := by
  obtain ⟨hlen, -, hget⟩ := elemOperands_some h hd
  have hk' : k < es.length := by omega
  have hdec : dec8 c (memRead b (8 * k) 8) = some es[k] := by rw [hget k hk, List.getElem?_eq_getElem hk']
  rw [List.getD_eq_getElem _ _ hk', (dec8_some h hdec).1]

/-- The operands of a payload whose first 8 bytes are `a`, taken apart. -/
theorem elemOperands_append_some {c : Cfg} {a b : List Byte} {n : Nat} {es : List Word} (ha : a.length = 8)
    (hd : elemOperands c (a ++ b) (n + 1) = some es) :
    ∃ v vs, es = v :: vs ∧ dec8 c a = some v ∧ elemOperands c b n = some vs := by
  rw [elemOperands, elemGroups_append a b n ha, decodeAll] at hd
  split at hd
  case h_1 v vs hv hvs => exact ⟨v, vs, (Option.some.inj hd).symm, hv, hvs⟩
  case h_2 => cases hd

/-- The operands of a payload, encoded again, are the bytes they were read from (R152). -/
theorem encElems_of_elemOperands {c : Cfg} (h : c.WellFormed) {b : List Byte} {n : Nat} {es : List Word}
    (hlen : 8 * n ≤ b.length) (hd : elemOperands c b n = some es) : encElems es = b.take (8 * n) := by
  induction n generalizing b es with
  | zero => cases hd; rfl
  | succ n ih =>
    have hgroup : (b.take 8).length = 8 := by rw [List.length_take]; omega
    rw [← List.take_append_drop 8 b] at hd
    obtain ⟨v, vs, rfl, hv, hvs⟩ := elemOperands_append_some hgroup hd
    have hrest : 8 * n ≤ (b.drop 8).length := by rw [List.length_drop]; omega
    rw [encElems_cons, enc8_of_dec8 h hgroup hv, ih hrest hvs, Nat.mul_succ, Nat.add_comm, List.take_add]

/-- A cursor operand below `RW` fits the cursor register (R27). -/
theorem cursorOperand_toNat (v : Variant) {b : List Byte} (hcur : cursorOperand v.cfg b < v.cfg.rw) :
    (BitVec.ofNat 64 (cursorOperand v.cfg b)).toNat = cursorOperand v.cfg b := by
  rw [BitVec.toNat_ofNat, Nat.mod_eq_of_lt (hcur.trans v.rw_lt_two_pow)]

/-- A payload that RESTORE accepts is the persisted state of its operands (R152). -/
theorem persisted_operands (v : Variant) {b : List Byte} {es : List Word} (hlen : b.length = v.cfg.sw * 8 + 8)
    (hd : elemOperands v.cfg b v.cfg.sw = some es) (hcur : cursorOperand v.cfg b < v.cfg.rw) :
    persisted ⟨es, BitVec.ofNat 64 (cursorOperand v.cfg b)⟩ = b := by
  have hread : (memRead b (8 * v.cfg.sw) 8).length = 8 := memRead_length_of_le (by omega)
  have hcursor : memRead b (8 * v.cfg.sw) 8 = b.drop (8 * v.cfg.sw) :=
    List.take_of_length_le (by rw [List.length_drop]; omega)
  calc persisted ⟨es, BitVec.ofNat 64 (cursorOperand v.cfg b)⟩
      = encElems es ++ toLe64 (cursorOperand v.cfg b) := by rw [persisted, cursorOperand_toNat v hcur]
    _ = b.take (8 * v.cfg.sw) ++ b.drop (8 * v.cfg.sw) := by
      rw [encElems_of_elemOperands v.wf (by omega) hd, cursorOperand, toLe64_le64 hread, hcursor]
    _ = b := List.take_append_drop _ b

/-! ## SAVE and RESTORE on a state -/

@[simp] theorem context_respond (b : List Byte) (s : State) : (respond b s).context = s.context := rfl

theorem exec_save (s : State) : exec (.save []) s = .next (respond (persisted s.context) s) := execSave_legal s

/-- All that RESTORE can do: raise an error, or pass the three checks and write its operands (R151). -/
theorem exec_restore_cases (s : State) (b : List Byte) :
    (∃ st, st ≠ .ok ∧ exec (.restore b) s = .next (raise st s)) ∨
      ∃ es, b.length = s.cfg.sw * 8 + 8 ∧ elemOperands s.cfg b s.cfg.sw = some es ∧ cursorOperand s.cfg b < s.cfg.rw ∧
        exec (.restore b) s = .next (respond [] (s.setContext ⟨es, BitVec.ofNat 64 (cursorOperand s.cfg b)⟩)) := by
  by_cases hlen : b.length = s.cfg.sw * 8 + 8
  case neg => exact .inl ⟨.illegalCommand, by decide, execRestore_illegal s b hlen⟩
  cases hd : elemOperands s.cfg b s.cfg.sw with
  | none => exact .inl ⟨.invalidFieldElement, by decide, execRestore_invalid s b hlen hd⟩
  | some es =>
    rcases Nat.lt_or_ge (cursorOperand s.cfg b) s.cfg.rw with hcur | hcur
    · exact .inr ⟨es, hlen, rfl, hcur, execRestore_legal s b hlen hd hcur⟩
    · exact .inl ⟨.badCursor, by decide, execRestore_badCursor s b hlen hd hcur⟩

/-- RESTORE of the persisted state of a good context (R152). -/
theorem exec_restore_persisted (s : State) {sp : Sponge} (hok : sp.Ok s.cfg) :
    exec (.restore (persisted sp)) s = .next (respond [] (s.setContext sp)) := by
  obtain ⟨hX, hcanon, hk⟩ := hok
  have hcur := cursorOperand_persisted hX
  have hexec := execRestore_legal s (persisted sp) (by rw [persisted_length, hX]) (elemOperands_persisted hX hcanon)
    (by rwa [hcur])
  rwa [hcur, BitVec.ofNat_toNat, BitVec.setWidth_eq] at hexec

/-! ## The statements -/

/-- Settles O35: the answer is the persisted context, whose groups are its elements and then its cursor. -/
theorem saveAnswersThePersistedState : Obligations.SaveAnswersThePersistedState := by
  intro s hS
  refine ⟨⟨persisted s.context, exec_save s, ?length, ?element, ?cursor⟩, ?refused⟩
  case length => rw [persisted_length, context_X, hS]
  case element => exact fun i hi => memRead_persisted_elem (sp := s.context) hi
  case cursor => exact hS ▸ memRead_persisted_cursor s.context
  case refused => exact fun b hb => execSave_illegal s b (mt List.length_eq_zero_iff.1 hb)

/-- Settles O36: the three refusals and the write are the cases of `execRestore`. -/
theorem restoreWritesTheContextOrNothing : Obligations.RestoreWritesTheContextOrNothing := by
  intro s b
  refine ⟨?wrong_length, ?not_canonical, ?bad_cursor, ?restored⟩
  case wrong_length => exact execRestore_illegal s b
  case not_canonical => exact fun hlen hbad => execRestore_invalid s b hlen (elemOperands_none.2 hbad)
  case bad_cursor =>
    intro hlen hcanon hcur
    obtain ⟨es, hes⟩ := exists_elemOperands hcanon
    exact execRestore_badCursor s b hlen hes hcur
  case restored =>
    intro hlen hcanon hcur
    obtain ⟨es, hes⟩ := exists_elemOperands hcanon
    obtain ⟨hes_length, -, -⟩ := elemOperands_some s.variant.wf hes
    exact ⟨es, _, execRestore_legal s b hlen hes hcur, hes_length,
      fun i hi => elemOperands_getD_toNat s.variant.wf hes hi, cursorOperand_toNat s.variant hcur⟩

/-- Settles O37: the saved context is good, so its persisted state passes the checks of any instance of the variant. -/
theorem saveThenRestoreGivesTheContextBack : Obligations.SaveThenRestoreGivesTheContextBack := by
  intro s u hinv hvariant
  have hok : s.context.Ok u.cfg := by rw [State.cfg, hvariant]; exact hinv
  exact ⟨_, persisted s.context, _, exec_save s, rfl, exec_restore_persisted u hok, rfl, rfl, rfl⟩

/-- Settles O38: an OK answer is not an error's, so the payload passed the checks and is what SAVE answers for its operands. -/
theorem restoreThenSaveAnswersTheSameBytes : Obligations.RestoreThenSaveAnswersTheSameBytes := by
  intro s t b hexec htx
  obtain ⟨st, hst, hraise⟩ | ⟨es, hlen, hd, hcur, hlegal⟩ := exec_restore_cases s b
  case inl =>
    cases hraise.symm.trans hexec
    exact absurd (responseFrame_inj (List.append_cancel_left htx)).1 hst
  case inr =>
    cases hlegal.symm.trans hexec
    rw [exec_save, context_respond, context_setContext, persisted_operands s.variant hlen hd hcur]
    rfl

end Sys2Proof.Machine
end

section
/-! PROOFS. The statements of 60_exceptions.md: each cause of an error decides a command's effect in the order of R165, no cause
means `OK`, and nothing stops the engine. -/

namespace Sys2Proof.Machine

/-! ## The causes of an error, in the order of R165

`effect_of_lenIllegal` is the first; each lemma below assumes that the causes before its own do not apply. -/

section

variable {c : Cfg} {i : Instr}

/-- A bad element is what makes the decoding of a command's operands fail (R161). -/
theorem badElement_iff : badElement c i = true ↔ elemOperands c i.payload (elemCount c i) = none := by
  rw [elemOperands_none]
  simp [badElement]

theorem exists_operands_of_not_badElement (h : badElement c i = false) :
    ∃ es, elemOperands c i.payload (elemCount c i) = some es := by
  apply Option.ne_none_iff_exists'.1
  rw [ne_eq, ← badElement_iff, h]
  exact Bool.false_ne_true

/-- Every command with element operands decodes them all before it does anything else (R161, R164). -/
theorem effect_of_badElement (hlen : i.lenLegal c = true) (h : badElement c i = true) (sp : Sponge) :
    effect c sp i = errorEffect .invalidFieldElement := by
  rw [badElement_iff] at h
  cases i with
  | new b | absorb b | finalize b | save b | hash b => cases h
  | absorbf b | hashf b | restore b | merge b | permute b =>
    simp only [Instr.payload, elemCount] at h
    rw [effect, if_neg (by simpa [Instr.lenLegal] using hlen), h]

/-- RESTORE looks at its cursor last, and no other command has one (R163). -/
theorem effect_of_badCursorField (hlen : i.lenLegal c = true) (helem : badElement c i = false)
    (h : badCursorField c i = true) (sp : Sponge) : effect c sp i = errorEffect .badCursor := by
  obtain ⟨es, hes⟩ := exists_operands_of_not_badElement helem
  cases i with
  | new b | absorb b | absorbf b | finalize b | save b | hash b | hashf b | merge b | permute b => cases h
  | restore b =>
    have hcur : c.rw ≤ cursorOperand c b := by simpa [badCursorField, cursorOperand] using h
    simp only [Instr.payload, elemCount] at hes
    rw [effect, if_neg (by simpa [Instr.lenLegal] using hlen), hes]
    exact if_pos hcur

/-- A command to which no cause applies is answered `OK`. -/
theorem effect_st_of_no_cause (hlen : i.lenLegal c = true) (helem : badElement c i = false)
    (hcur : badCursorField c i = false) (sp : Sponge) : (effect c sp i).st = .ok := by
  obtain ⟨es, hes⟩ := exists_operands_of_not_badElement helem
  cases i with
  | absorb b | hash b => rfl
  | new b | finalize b | save b => rw [effect, if_neg (by simpa [Instr.lenLegal] using hlen)]
  | absorbf b | hashf b | merge b | permute b =>
    simp only [Instr.payload, elemCount] at hes
    rw [effect, if_neg (by simpa [Instr.lenLegal] using hlen), hes]
  | restore b =>
    have hcur : ¬ c.rw ≤ cursorOperand c b := by simpa [badCursorField, cursorOperand] using hcur
    simp only [Instr.payload, elemCount] at hes
    rw [effect, if_neg (by simpa [Instr.lenLegal] using hlen), hes]
    exact congrArg Effect.st (if_neg hcur)

end

/-! ## The status of a command and of a frame -/

/-- An effect that answers the status `st`, and is an error's effect unless `st` is `OK` (R164). -/
def Effect.Answers (e : Effect) (st : Status) : Prop := e.st = st ∧ (st ≠ .ok → e = errorEffect st)

theorem errorEffect_answers (st : Status) : (errorEffect st).Answers st := ⟨rfl, fun _ => rfl⟩

theorem answers_ok {e : Effect} (h : e.st = .ok) : e.Answers .ok := ⟨h, fun hne => absurd rfl hne⟩

/-- A command's effect answers the status of the first cause that applies to it (R165, R176). -/
theorem effect_answers_statusOfInstr (c : Cfg) (sp : Sponge) (i : Instr) :
    (effect c sp i).Answers (statusOfInstr c i) := by
  rw [statusOfInstr]
  cases hlen : i.lenLegal c
  case false => rw [if_pos rfl, effect_of_lenIllegal hlen]; exact errorEffect_answers _
  rw [if_neg Bool.false_ne_true.symm]
  cases helem : badElement c i
  case true => rw [if_pos rfl, effect_of_badElement hlen helem]; exact errorEffect_answers _
  rw [if_neg Bool.false_ne_true]
  cases hcur : badCursorField c i
  case true => rw [if_pos rfl, effect_of_badCursorField hlen helem hcur]; exact errorEffect_answers _
  rw [if_neg Bool.false_ne_true]
  exact answers_ok (effect_st_of_no_cause hlen helem hcur sp)

/-- The same of a whole frame, reserved or not (R67, R165). -/
theorem exists_effect_answers_statusOfFrame (c : Cfg) (sp : Sponge) (op : Byte) {payload : List Byte}
    (hlen : payload.length < 2 ^ 64) (rest : List Byte) :
    ∃ e, frameEffect c sp (decode (commandFrame op payload ++ rest)) = some (e, rest) ∧
      e.Answers (statusOfFrame c op payload) := by
  cases hi : instrOf op payload with
  | some i =>
    refine ⟨effect c sp i, by rw [decode_commandFrame_of_some hlen hi]; rfl, ?_⟩
    simpa only [statusOfFrame, hi] using effect_answers_statusOfInstr c sp i
  | none =>
    refine ⟨errorEffect .illegalCommand, by rw [decode_commandFrame_of_none hlen hi]; rfl, ?_⟩
    simpa only [statusOfFrame, hi] using errorEffect_answers .illegalCommand

/-! ## The statements -/

/-- Settles O8: the step applies the frame's effect, which answers the frame's status; an error's effect is `raise`, and that
only sends the response. -/
theorem everyFrameGetsItsStatus : Obligations.EveryFrameGetsItsStatus := by
  intro s op payload rest hlen hrx
  obtain ⟨e, he, hst, herror⟩ := exists_effect_answers_statusOfFrame s.cfg s.context op hlen rest
  refine ⟨e.apply (s.setRx rest), e.payload, step_of_frameEffect_some (by rw [hrx, he]), by simp, by simp [hst], ?_⟩
  intro hne
  rw [herror hne, apply_errorEffect]
  exact ⟨rfl, rfl, rfl, rfl, rfl, rfl, rfl⟩

/-- A step waits or applies an effect; either way there is a next state. -/
theorem exists_step_next (s : State) : ∃ t, step s = .next t := by
  cases hf : frameEffect s.cfg s.context (decode s.rx) with
  | none => exact ⟨s, step_of_frameEffect_none hf⟩
  | some er =>
    obtain ⟨e, rest⟩ := er
    exact ⟨e.apply (s.setRx rest), step_of_frameEffect_some hf⟩

/-- Settles O9: the next state keeps the invariant, by the statement of 10_state.md. -/
theorem everyStepAnswersANextState : Obligations.EveryStepAnswersANextState := by
  refine ⟨exists_step_next, fun s hs => ?_⟩
  obtain ⟨t, ht⟩ := exists_step_next s
  obtain ⟨hinv, -⟩ := everyStepKeepsTheInvariant s t hs ht
  exact ⟨t, ht, hinv⟩

end Sys2Proof.Machine
end

section
/-! PROOFS. The statement of 70_reset_and_hazards.md: reset leaves the fresh context and no received byte, so the engine waits,
and the next frame is the first one it takes. -/

namespace Sys2Proof.Machine

/-- Reset leaves the context that NEW writes (R31, R120). -/
@[simp] theorem context_hardReset (s : State) : s.hardReset.context = ⟨freshArray s.cfg, 0⟩ := rfl

/-- The persisted fresh context is zero bytes only: those of its elements and those of its cursor (R150). -/
theorem persisted_fresh (c : Cfg) : persisted ⟨freshArray c, 0⟩ = List.replicate (c.sw * 8 + 8) 0 := by
  have hcursor : toLe64 (0 : Word).toNat = List.replicate 8 0 := by decide
  rw [persisted, freshArray, encElems_replicate_zero, hcursor, List.replicate_append_replicate, Nat.mul_comm]

/-- With no byte received the engine waits (R20). -/
theorem step_of_rx_nil {s : State} (h : s.rx = []) : step s = .next s :=
  step_of_frameEffect_none (by rw [h]; rfl)

/-- A frame sent to an engine with no byte received is the one the next step takes, and nothing of it is left (R61). -/
theorem step_hostSend_encode {s : State} {i : Instr} (hi : i.payload.length < 2 ^ 64) (h : s.rx = []) :
    step (s.hostSend (encode i)) = exec i s := by
  have hrx : (s.hostSend (encode i)).rx = encode i ++ [] := by rw [hostSend_rx, h, List.append_nil, List.nil_append]
  have hback : (s.hostSend (encode i)).setRx [] = s := by rw [← h]; rfl
  rw [step_encode hi hrx, hback]

/-! ## The statement -/

/-- Settles O15: reset leaves nothing in `rx`, so the engine waits and then takes SAVE's frame, whose answer is the persisted
fresh context. -/
theorem resetAbandonsEverything : Obligations.ResetAbandonsEverything := by
  intro s
  refine ⟨fun i => ?array, hardReset_IDX s, hardReset_variant s, hardReset_tx s, step_of_rx_nil (hardReset_rx s), ?save⟩
  case array => rw [hardReset_S, List.getElem?_replicate]
  case save =>
    have hlen : (Instr.save []).payload.length < 2 ^ 64 := by decide
    rw [step_hostSend_encode hlen (hardReset_rx s), exec_save, context_hardReset, persisted_fresh, respond_eq_send]

end Sys2Proof.Machine
end
